-- ==== Sys2Proof/Word.lean ====
section
/-! DEFINITION. The widths of the block's data (spec/00_scope.md rules R3, R5 and section 6.1): a byte,
a word, and the request word of spec/30_encoding.md rule R53. Everything is unsigned. -/

namespace Sys2Proof

/-- CRC_W = 8: a byte, the accumulator's width (R3; row CRC_W of R5's table). -/
abbrev Byte := BitVec 8

/-- WORD_W = OPC_W = 16: a data word or a sensor command opcode (R3; row WORD_W, OPC_W of R5's
table). -/
abbrev Word := BitVec 16

/-- The 20-bit request word `REQ`: OPSEL in bits 19:16, DIN in bits 15:0 (R53; row request word width
of R5's table). -/
abbrev Request := BitVec 20

end Sys2Proof
end

