-- ==== Sys2Proof/Machine/Operands.lean ====
section
/-! DEFINITION. The operand forms: the fields of a request word (spec/30_encoding.md rules R53 and
R55), a word split into its two bytes and put together again (spec/20_memory.md rules R31 and R32),
and the read of an input sequence (rule R43). -/

namespace Sys2Proof.Machine

/-- `OPSEL = REQ[19:16]` (R53). -/
def reqOpsel (w : Request) : BitVec 4 := w.extractLsb' 16 4

/-- `DIN = REQ[15:0]` (R53). -/
def reqDin (w : Request) : BitVec 16 := w.extractLsb' 0 16

/-- Format B: `d8 = REQ[7:0]`, bits 15:8 ignored (R55). -/
def reqByte (w : Request) : Byte := w.extractLsb' 0 8

/-- Format W: `w16 = REQ[15:0]` (R55). -/
def reqWord (w : Request) : Word := reqDin w

/-- A request word from its two fields (R53): `(OPSEL << 16) | DIN`. -/
def mkRequest (opsel : BitVec 4) (d : BitVec 16) : Request :=
  (opsel.setWidth 20 <<< 16) ||| d.setWidth 20

/-- A byte operand in DIN, the ignored bits written as zero (R55). -/
def dinOfByte (d8 : Byte) : BitVec 16 := d8.setWidth 16

/-- `w[15:8]`, the most significant byte of a word, first on the wire (R31, R32). -/
def hiByte (w : Word) : Byte := w.extractLsb' 8 8

/-- `w[7:0]`, the least significant byte of a word. -/
def loByte (w : Word) : Byte := w.extractLsb' 0 8

/-- `msb ## lsb = (msb << 8) | lsb`, the word of two bytes, `msb` at the more significant end
(R32; spec/00_scope.md section 6.1). -/
def joinBytes (msb lsb : Byte) : Word := (msb.setWidth 16 <<< 8) ||| lsb.setWidth 16

/-- `MemRead(addr, n)`: elements `s[addr .. addr+n)` of an input sequence, for
`addr + n ≤ len(s)` (R43). -/
def memRead {α : Type} (s : List α) (addr n : Nat) : List α := (s.drop addr).take n

end Sys2Proof.Machine
end

