-- ==== Sys2Proof/Syntax.lean ====
section
/-! DEFINITION. The operations of the block, one constructor per row of spec/opcode_table.json: the
eight micro-operations (spec/30_encoding.md rule R54), the four macro-operations (rule R57) and the
reserved selectors (rule R56). -/

namespace Sys2Proof

inductive Instr where
  /-- CRC.INIT, rule R73. -/
  | crcInit
  /-- CRC.BYTE d8, rule R74. -/
  | crcByte (d8 : Byte)
  /-- CRC.READ, rule R75. -/
  | crcRead
  /-- TX.OPC w16, rule R92. -/
  | txOpc (w16 : Word)
  /-- TX.WORD w16, rule R93. -/
  | txWord (w16 : Word)
  /-- RX.START, rule R102. -/
  | rxStart
  /-- RX.BYTE d8, rule R103. -/
  | rxByte (d8 : Byte)
  /-- RX.END, rule R104. -/
  | rxEnd
  /-- CRC8 a, b: macro-operation, rules R57 and R72. -/
  | crc8 (a b : Byte)
  /-- ENCC op: macro-operation, rules R57 and R90. -/
  | encc (op : Word)
  /-- ENCW op, words: macro-operation, rules R57 and R91. -/
  | encw (op : Word) (words : List Word)
  /-- DECW raw: macro-operation, rules R57 and R100. -/
  | decw (raw : List Byte)
  /-- A request word with a reserved selector, OPSEL 0x8 to 0xF, rule R56. -/
  | reserved (opsel : BitVec 4) (din : BitVec 16)
deriving DecidableEq, Repr

end Sys2Proof
end

