-- ==== Sys2Proof/Decode.lean ====
section
/-! DEFINITION. Decoding and encoding of request words (spec/30_encoding.md rules R53 to R57), the
operation table as mask and match (rule R54), and the expansion of the macro-operations
(rule R57). -/

namespace Sys2Proof

open Sys2Proof.Machine

/-- Why a number is no request word. -/
inductive DecodeError where
  /-- A request word has 20 bits (R53); the number does not fit. Raised by `decodeNat`; safe. -/
  | tooWide
deriving DecidableEq, Repr

/-- The decoder examines OPSEL only (R54); selectors 8 to 15 are reserved (R56). Total on all 2^20
request words. -/
def decode (w : Request) : Instr :=
  match (reqOpsel w).toNat with
  | 0 => .crcInit
  | 1 => .crcByte (reqByte w)
  | 2 => .crcRead
  | 3 => .txOpc (reqWord w)
  | 4 => .txWord (reqWord w)
  | 5 => .rxStart
  | 6 => .rxByte (reqByte w)
  | 7 => .rxEnd
  | _ => .reserved (reqOpsel w) (reqDin w)

/-- The decoder on any number: one of 20 bits or fewer is a request word, any other is rejected by
name (log entry 12). -/
def decodeNat (w : Nat) : Except DecodeError Instr :=
  if w < 2 ^ 20 then .ok (decode (BitVec.ofNat 20 w)) else .error .tooWide

/-- What the decoder reads from the number `w` of an operation-table row of `nbits` bits. -/
def decodeTableWord (nbits w : Nat) : Option Instr :=
  match decodeNat (w % 2 ^ nbits) with
  | .ok i => some i
  | .error _ => none

/-- The expansion of an operation (R57): a macro-operation stands for its micro-operations, any other
operation for itself. -/
def expand (i : Instr) : List Instr :=
  match i with
  | .crcInit => [.crcInit]
  | .crcByte d8 => [.crcByte d8]
  | .crcRead => [.crcRead]
  | .txOpc w16 => [.txOpc w16]
  | .txWord w16 => [.txWord w16]
  | .rxStart => [.rxStart]
  | .rxByte d8 => [.rxByte d8]
  | .rxEnd => [.rxEnd]
  | .crc8 a b => [.crcInit, .crcByte a, .crcByte b, .crcRead]
  | .encc op => [.txOpc op]
  | .encw op words => .txOpc op :: words.map .txWord
  | .decw raw => .rxStart :: (raw.map .rxByte ++ [.rxEnd])
  | .reserved opsel din => [.reserved opsel din]

/-- The request words of an operation: the codes of R54 with the ignored bits zero (R55), a
macro-operation's being those of its expansion (R57). -/
def encode (i : Instr) : List Request :=
  match i with
  | .crcInit => [mkRequest 0x0 0]
  | .crcByte d8 => [mkRequest 0x1 (dinOfByte d8)]
  | .crcRead => [mkRequest 0x2 0]
  | .txOpc w16 => [mkRequest 0x3 w16]
  | .txWord w16 => [mkRequest 0x4 w16]
  | .rxStart => [mkRequest 0x5 0]
  | .rxByte d8 => [mkRequest 0x6 (dinOfByte d8)]
  | .rxEnd => [mkRequest 0x7 0]
  | .crc8 a b =>
      [mkRequest 0x0 0, mkRequest 0x1 (dinOfByte a), mkRequest 0x1 (dinOfByte b), mkRequest 0x2 0]
  | .encc op => [mkRequest 0x3 op]
  | .encw op words => mkRequest 0x3 op :: words.map (mkRequest 0x4)
  | .decw raw =>
      mkRequest 0x5 0 :: (raw.map (fun d8 => mkRequest 0x6 (dinOfByte d8)) ++ [mkRequest 0x7 0])
  | .reserved opsel din => [mkRequest opsel din]

/-- How many micro-operations an operation is: 4, 1, 1 + n and m + 2 for CRC8, ENCC, ENCW and DECW
(spec/70_reset_and_hazards.md rule R147), one for a request word. -/
def microCount (i : Instr) : Nat :=
  match i with
  | .crcInit => 1
  | .crcByte _ => 1
  | .crcRead => 1
  | .txOpc _ => 1
  | .txWord _ => 1
  | .rxStart => 1
  | .rxByte _ => 1
  | .rxEnd => 1
  | .crc8 _ _ => 4
  | .encc _ => 1
  | .encw _ words => 1 + words.length
  | .decw raw => raw.length + 2
  | .reserved _ _ => 1

/-- The bits of a request word that the block ignores (R55): all of DIN in format N, bits 15:8 in
format B, none in format W; none is said to be ignored under a reserved selector. -/
def ignoredMask (opsel : BitVec 4) : Request :=
  match opsel.toNat with
  | 0 => 0x0FFFF
  | 1 => 0x0FF00
  | 2 => 0x0FFFF
  | 5 => 0x0FFFF
  | 6 => 0x0FF00
  | 7 => 0x0FFFF
  | _ => 0

/-- One row of the operation table: a request word `w` is of the row when `w & mask = pattern`. -/
structure OpcodeRow where
  mnemonic : String
  pattern : Request
  mask : Request
deriving DecidableEq, Repr

/-- The rows of the operation table that have an encoding (R54, R56; spec/opcode_table.json). -/
def opcodeRows : List OpcodeRow :=
  [⟨"CRC.INIT", 0x00000, 0xF0000⟩,
   ⟨"CRC.BYTE", 0x10000, 0xF0000⟩,
   ⟨"CRC.READ", 0x20000, 0xF0000⟩,
   ⟨"TX.OPC", 0x30000, 0xF0000⟩,
   ⟨"TX.WORD", 0x40000, 0xF0000⟩,
   ⟨"RX.START", 0x50000, 0xF0000⟩,
   ⟨"RX.BYTE", 0x60000, 0xF0000⟩,
   ⟨"RX.END", 0x70000, 0xF0000⟩,
   ⟨"(reserved)", 0x80000, 0x80000⟩]

/-- The row's test of a request word (R54). -/
def rowMatches (w : Request) (row : OpcodeRow) : Bool := (w &&& row.mask) == row.pattern

/-- The mnemonic of an operation, as the operation table spells it. -/
def mnemonicOf (i : Instr) : String :=
  match i with
  | .crcInit => "CRC.INIT"
  | .crcByte _ => "CRC.BYTE"
  | .crcRead => "CRC.READ"
  | .txOpc _ => "TX.OPC"
  | .txWord _ => "TX.WORD"
  | .rxStart => "RX.START"
  | .rxByte _ => "RX.BYTE"
  | .rxEnd => "RX.END"
  | .crc8 _ _ => "CRC8"
  | .encc _ => "ENCC"
  | .encw _ _ => "ENCW"
  | .decw _ => "DECW"
  | .reserved _ _ => "(reserved)"

end Sys2Proof
end

