-- ==== Sys2Proof/Machine/Crc.lean ====
section
/-! DEFINITION. The CRC-8 functions of spec/40_crc8.md: one round (R70), one byte (R71), the checksum
of two bytes (R72), the test of a group (R80), the inverse round (R81), and the derived hardware
forms of the round and of the byte step (R77, R78, R79). -/

namespace Sys2Proof.Machine

/-- POLY = 0x31, hardwired (R3, R17; row POLY of R5's table). -/
def crcPoly : Byte := 0x31

/-- INIT = 0xFF, hardwired (R3, R17; row INIT of R5's table). -/
def crcInitValue : Byte := 0xFF

/-- `round(c)`: the high bit is tested before the shift, the XOR comes after it (R70). -/
def round (c : Byte) : Byte := if c.getLsbD 7 then (c <<< 1) ^^^ crcPoly else c <<< 1

/-- `absorb(c, d)`: the XOR once on the whole byte, then eight rounds (R71). -/
def absorb (c d : Byte) : Byte :=
  round (round (round (round (round (round (round (round (c ^^^ d))))))))

/-- `crc8(a, b) = absorb(absorb(0xFF, a), b)` (R72): exactly two bytes, the accumulator returned unchanged
(rows NBYTES, reflect, final XOR of R5's table). -/
def crc8 (a b : Byte) : Byte := absorb (absorb crcInitValue a) b

/-- `check(a, b, c)`: the group `a b c` is valid (R51, R80). -/
def check (a b c : Byte) : Bool := crc8 a b == c

/-- `round⁻¹` (R81 part a). -/
def roundInv (c : Byte) : Byte :=
  if c.getLsbD 0 then ((c ^^^ crcPoly) >>> 1) ||| 0x80 else c >>> 1

/-- One round as wires and XOR gates, bit 7 first: a shift register that feeds the bit leaving at 7
back into positions 0, 4 and 5 (R77). -/
def roundWires (c : Byte) : Byte :=
  BitVec.ofBoolListBE
    [c.getLsbD 6, c.getLsbD 5, c.getLsbD 4 ^^ c.getLsbD 7, c.getLsbD 3 ^^ c.getLsbD 7,
     c.getLsbD 2, c.getLsbD 1, c.getLsbD 0, c.getLsbD 7]

/-- One byte in one step: the eight XOR trees of R78 on `x = c ^ d`, bit 7 first. -/
def absorbTrees (x : Byte) : Byte :=
  BitVec.ofBoolListBE
    [x.getLsbD 2 ^^ x.getLsbD 3 ^^ x.getLsbD 5,
     x.getLsbD 1 ^^ x.getLsbD 2 ^^ x.getLsbD 4 ^^ x.getLsbD 7,
     x.getLsbD 0 ^^ x.getLsbD 1 ^^ x.getLsbD 3 ^^ x.getLsbD 6 ^^ x.getLsbD 7,
     x.getLsbD 0 ^^ x.getLsbD 3 ^^ x.getLsbD 6 ^^ x.getLsbD 7,
     x.getLsbD 3 ^^ x.getLsbD 6 ^^ x.getLsbD 7,
     x.getLsbD 2 ^^ x.getLsbD 5 ^^ x.getLsbD 6,
     x.getLsbD 1 ^^ x.getLsbD 4 ^^ x.getLsbD 5 ^^ x.getLsbD 7,
     x.getLsbD 0 ^^ x.getLsbD 3 ^^ x.getLsbD 4 ^^ x.getLsbD 6]

/-- Table entries 0x00 to 0x0F (R79). -/
def tableRow0 : List Byte :=
  [0x00, 0x31, 0x62, 0x53, 0xC4, 0xF5, 0xA6, 0x97,
   0xB9, 0x88, 0xDB, 0xEA, 0x7D, 0x4C, 0x1F, 0x2E]

/-- Table entries 0x10 to 0x1F (R79). -/
def tableRow1 : List Byte :=
  [0x43, 0x72, 0x21, 0x10, 0x87, 0xB6, 0xE5, 0xD4,
   0xFA, 0xCB, 0x98, 0xA9, 0x3E, 0x0F, 0x5C, 0x6D]

/-- Table entries 0x20 to 0x2F (R79). -/
def tableRow2 : List Byte :=
  [0x86, 0xB7, 0xE4, 0xD5, 0x42, 0x73, 0x20, 0x11,
   0x3F, 0x0E, 0x5D, 0x6C, 0xFB, 0xCA, 0x99, 0xA8]

/-- Table entries 0x30 to 0x3F (R79). -/
def tableRow3 : List Byte :=
  [0xC5, 0xF4, 0xA7, 0x96, 0x01, 0x30, 0x63, 0x52,
   0x7C, 0x4D, 0x1E, 0x2F, 0xB8, 0x89, 0xDA, 0xEB]

/-- Table entries 0x40 to 0x4F (R79). -/
def tableRow4 : List Byte :=
  [0x3D, 0x0C, 0x5F, 0x6E, 0xF9, 0xC8, 0x9B, 0xAA,
   0x84, 0xB5, 0xE6, 0xD7, 0x40, 0x71, 0x22, 0x13]

/-- Table entries 0x50 to 0x5F (R79). -/
def tableRow5 : List Byte :=
  [0x7E, 0x4F, 0x1C, 0x2D, 0xBA, 0x8B, 0xD8, 0xE9,
   0xC7, 0xF6, 0xA5, 0x94, 0x03, 0x32, 0x61, 0x50]

/-- Table entries 0x60 to 0x6F (R79). -/
def tableRow6 : List Byte :=
  [0xBB, 0x8A, 0xD9, 0xE8, 0x7F, 0x4E, 0x1D, 0x2C,
   0x02, 0x33, 0x60, 0x51, 0xC6, 0xF7, 0xA4, 0x95]

/-- Table entries 0x70 to 0x7F (R79). -/
def tableRow7 : List Byte :=
  [0xF8, 0xC9, 0x9A, 0xAB, 0x3C, 0x0D, 0x5E, 0x6F,
   0x41, 0x70, 0x23, 0x12, 0x85, 0xB4, 0xE7, 0xD6]

/-- Table entries 0x80 to 0x8F (R79). -/
def tableRow8 : List Byte :=
  [0x7A, 0x4B, 0x18, 0x29, 0xBE, 0x8F, 0xDC, 0xED,
   0xC3, 0xF2, 0xA1, 0x90, 0x07, 0x36, 0x65, 0x54]

/-- Table entries 0x90 to 0x9F (R79). -/
def tableRow9 : List Byte :=
  [0x39, 0x08, 0x5B, 0x6A, 0xFD, 0xCC, 0x9F, 0xAE,
   0x80, 0xB1, 0xE2, 0xD3, 0x44, 0x75, 0x26, 0x17]

/-- Table entries 0xA0 to 0xAF (R79). -/
def tableRowA : List Byte :=
  [0xFC, 0xCD, 0x9E, 0xAF, 0x38, 0x09, 0x5A, 0x6B,
   0x45, 0x74, 0x27, 0x16, 0x81, 0xB0, 0xE3, 0xD2]

/-- Table entries 0xB0 to 0xBF (R79). -/
def tableRowB : List Byte :=
  [0xBF, 0x8E, 0xDD, 0xEC, 0x7B, 0x4A, 0x19, 0x28,
   0x06, 0x37, 0x64, 0x55, 0xC2, 0xF3, 0xA0, 0x91]

/-- Table entries 0xC0 to 0xCF (R79). -/
def tableRowC : List Byte :=
  [0x47, 0x76, 0x25, 0x14, 0x83, 0xB2, 0xE1, 0xD0,
   0xFE, 0xCF, 0x9C, 0xAD, 0x3A, 0x0B, 0x58, 0x69]

/-- Table entries 0xD0 to 0xDF (R79). -/
def tableRowD : List Byte :=
  [0x04, 0x35, 0x66, 0x57, 0xC0, 0xF1, 0xA2, 0x93,
   0xBD, 0x8C, 0xDF, 0xEE, 0x79, 0x48, 0x1B, 0x2A]

/-- Table entries 0xE0 to 0xEF (R79). -/
def tableRowE : List Byte :=
  [0xC1, 0xF0, 0xA3, 0x92, 0x05, 0x34, 0x67, 0x56,
   0x78, 0x49, 0x1A, 0x2B, 0xBC, 0x8D, 0xDE, 0xEF]

/-- Table entries 0xF0 to 0xFF (R79). -/
def tableRowF : List Byte :=
  [0x82, 0xB3, 0xE0, 0xD1, 0x46, 0x77, 0x24, 0x15,
   0x3B, 0x0A, 0x59, 0x68, 0xFF, 0xCE, 0x9D, 0xAC]

/-- `T`, the 256-entry table of R79, as the spec prints it. -/
def absorbTable : List Byte :=
  tableRow0 ++ tableRow1 ++ tableRow2 ++ tableRow3 ++ tableRow4 ++
  tableRow5 ++ tableRow6 ++ tableRow7 ++ tableRow8 ++ tableRow9 ++
  tableRowA ++ tableRowB ++ tableRowC ++ tableRowD ++ tableRowE ++ tableRowF

end Sys2Proof.Machine
end

