-- ==== Sys2Proof/Config.lean ====
section
/-! DEFINITION. The parameters the spec leaves open (spec/00_scope.md rule R4): sizes an
implementation fixes and no operation changes. `none` is the unbounded choice that R4 allows. Which
sizes a choice admits is said in Machine/Ops.lean. -/

namespace Sys2Proof

/-- One choice of the open parameters of R4 (rows NW_MAX, RAW_MAX, WCNT_W of R5's table). -/
structure Config where
  /-- NW_MAX: the largest number of payload words one ENCW accepts. -/
  nwMax : Option Nat
  /-- RAW_MAX: the largest number of bytes one DECW accepts. -/
  rawMax : Option Nat
  /-- WCNT_W: the width in bits of the word counter WCNT. -/
  wcntW : Option Nat
deriving DecidableEq, Repr

/-- "A model may take all three as unbounded" (R4). DESIGN CHOICE (log entry 7), safe. -/
def Config.unbounded : Config := { nwMax := none, rawMax := none, wcntW := none }

end Sys2Proof
end

