-- ==== Sys2Proof/Machine/State.lean ====
section
/-! DEFINITION. The state of the block: the six registers of spec/10_state.md rule R10, the output
streams (rule R19), the host's pending inputs (spec/30_encoding.md rule R59), the open parameters
(spec/00_scope.md rule R4), and the state after reset (rule R21). -/

namespace Sys2Proof.Machine

/-- PH: the position of the next received byte inside its group; a three-valued type, since 3 is
never reached (R13). -/
inductive Phase where
  /-- PH = 0: the next byte is `group[0]`, the word's most significant byte. -/
  | msb
  /-- PH = 1: the next byte is `group[1]`, the word's least significant byte. -/
  | lsb
  /-- PH = 2: the next byte is `group[2]`, the received checksum. -/
  | check
deriving DecidableEq, Repr

/-- The registers: "the block's entire state is six registers" (R10). -/
structure Regs where
  /-- The CRC accumulator, shared by all three families (R11). -/
  crc : Byte
  /-- First data byte of the group being received (R12). -/
  msb : Byte
  /-- Second data byte of the group being received (R12). -/
  lsb : Byte
  /-- Phase counter (R13). -/
  ph : Phase
  /-- Set by a CRC mismatch: the rest of the response is ignored (R14). -/
  stop : Bool
  /-- Words emitted since the last RX.START (R15); the bound is the parameter WCNT_W (log entry 8). -/
  wcnt : Nat
deriving DecidableEq, Repr

/-- One status record `S(n, e)` on STAT (R59). -/
structure StatRec where
  count : Nat
  empty : Bool
deriving DecidableEq, Repr

/-- One output item of a micro-operation (R59). -/
inductive Out where
  /-- `B(v)`: a byte on BOUT. -/
  | B (v : Byte)
  /-- `W(v)`: a word on WOUT. -/
  | W (v : Word)
  /-- `S(n, e)`: a status record on STAT. -/
  | S (n : Nat) (e : Bool)
deriving DecidableEq, Repr

/-- What the host presents to the block, one at a time (R39, R59, R140). -/
inductive HostInput where
  /-- A request word on `REQ` (R53). -/
  | request (w : Request)
  /-- An operation named by its mnemonic, level T operations among them (R57, R58; log entry 4). -/
  | operation (i : Instr)
  /-- The reset event `RST`, which is no request word (R140). -/
  | reset
deriving DecidableEq, Repr

/-- The reasons to stop with a fault. There is none: "The block raises no exception, trap or fault,
synchronous or asynchronous" (spec/60_exceptions.md rule R120; log entry 15). -/
inductive Fault
deriving DecidableEq, Repr

/-- The reasons the model gives no meaning. -/
inductive Refusal where
  /-- An operation the model has no meaning for yet; raised by an arm of `exec`; safe. No arm uses
  it. -/
  | notModelled (mnemonic : String)
  /-- OPSEL 0x8 to 0xF: "A model must refuse a request word with a reserved selector" (R56, U1);
  raised by `execReserved`; safe. -/
  | reservedSelector
  /-- ENCW with more than NW_MAX words (R4, U3); raised by `execEncw`; safe. -/
  | encwOverNwMax
  /-- DECW with more than RAW_MAX bytes (R4, U3); raised by `execDecw`; safe. -/
  | decwOverRawMax
  /-- A word that WCNT cannot count in WCNT_W bits (R15, U3); raised by `execRxByte`; safe. -/
  | wcntOverflow
deriving DecidableEq, Repr

/-- The machine. -/
structure State where
  /-- The six registers (R10). -/
  regs : Regs
  /-- BOUT: the bytes emitted so far, oldest first (R19; log entry 1). -/
  bout : List Byte
  /-- WOUT: the words emitted so far, oldest first (R19; log entry 1). -/
  wout : List Word
  /-- STAT: the status records emitted so far, oldest first (R19; log entry 1). -/
  stat : List StatRec
  /-- What the host presents, the next input first (R16, R39; log entry 2). -/
  inputs : List HostInput
  /-- The open parameters: written by nothing (R4, R19; log entry 7). -/
  cfg : Config
deriving DecidableEq, Repr

/-- The register values after RST (R21). -/
def Regs.reset : Regs :=
  { crc := 0xFF, msb := 0x00, lsb := 0x00, ph := .msb, stop := false, wcnt := 0 }

/-- The machine right after reset (R21): the registers at their reset values, the streams empty,
nothing presented by the host, the parameters unbounded (log entry 7). -/
def State.reset : State :=
  { regs := Regs.reset, bout := [], wout := [], stat := [], inputs := [],
    cfg := Config.unbounded }

end Sys2Proof.Machine
end

