-- ==== Sys2Proof/Machine/Ops.lean ====
section
/-! DEFINITION. The operations every meaning shares: emitting on the output streams
(spec/10_state.md rule R19), committing a micro-operation's registers and outputs in one step
(spec/30_encoding.md rule R59), running micro-operations first to last (rules R39, R57), the reset
event (spec/70_reset_and_hazards.md rule R140), and the size parameters (spec/00_scope.md rule R4).
The block takes no exception and has no return from one (spec/60_exceptions.md rules R120, R125,
R126), so there is no operation for either. -/

namespace Sys2Proof.Machine

/-- What a meaning answers. -/
abbrev Result := Host.Outcome State Fault Refusal

/-- `emit`: append one item to the stream it belongs to (R19, R30). -/
def emit (s : State) (o : Out) : State :=
  match o with
  | .B v => { s with bout := s.bout ++ [v] }
  | .W v => { s with wout := s.wout ++ [v] }
  | .S n e => { s with stat := s.stat ++ [{ count := n, empty := e }] }

/-- Emit items in the order given (R39). -/
def emitAll (s : State) (os : List Out) : State := os.foldl emit s

/-- One atomic micro-operation: new registers and its ordered output items at once (R37, R59). -/
def commit (s : State) (step : Regs × List Out) : Result :=
  .next (emitAll { s with regs := step.1 } step.2)

/-- Operations one after another, each to completion before the next (R39); stops at the first
that refuses. -/
def runAll : List (State → Result) → State → Result
  | [], s => .next s
  | f :: fs, s =>
    match f s with
    | .next s' => runAll fs s'
    | .fault r => .fault r
    | .refused r => .refused r

/-- The reset event RST (R21, R140): every register at its reset value, the streams empty; the
parameters and what the host presents next are not the block's to change (log entry 5). -/
def applyReset (s : State) : State :=
  { s with regs := Regs.reset, bout := [], wout := [], stat := [] }

/-- ENCW accepts `n` payload words: `n ≤ NW_MAX` (R4, R91). -/
def nwFits (c : Config) (n : Nat) : Bool :=
  match c.nwMax with
  | none => true
  | some m => decide (n ≤ m)

/-- DECW accepts `m` bytes: `m ≤ RAW_MAX` (R4, R100). -/
def rawFits (c : Config) (m : Nat) : Bool :=
  match c.rawMax with
  | none => true
  | some k => decide (m ≤ k)

/-- WCNT can hold `n`: `n ≤ 2^WCNT_W - 1` (R4, R15). -/
def wcntFits (c : Config) (n : Nat) : Bool :=
  match c.wcntW with
  | none => true
  | some w => decide (n ≤ 2 ^ w - 1)

/-- The parameters are ones that R4 allows: RAW_MAX is at least 27, and WCNT can count the groups of
the longest response (rows RAW_MAX and WCNT_W of R5's table). -/
def configOk (c : Config) : Bool :=
  (match c.rawMax with
    | none => true
    | some k => decide (27 ≤ k)) &&
  (match c.wcntW, c.rawMax with
    | none, _ => true
    | some _, none => false
    | some w, some k => decide (k / 3 ≤ 2 ^ w - 1))

end Sys2Proof.Machine
end

