-- ==== Sys2Proof/Machine/CrcOps.lean ====
section
/-! DEFINITION. The CRC family of spec/40_crc8.md: the micro-operations CRC.INIT (R73), CRC.BYTE (R74)
and CRC.READ (R75) as step functions on the registers (spec/30_encoding.md rule R59), their meanings,
and the macro-operation CRC8 (rules R57, R72, R76). -/

namespace Sys2Proof.Machine

/-- `CRC <- 0xFF` (R73). -/
def crcInitStep (r : Regs) : Regs × List Out := ({ r with crc := crcInitValue }, [])

/-- `CRC <- absorb(CRC, d8)` (R74). -/
def crcByteStep (d8 : Byte) (r : Regs) : Regs × List Out := ({ r with crc := absorb r.crc d8 }, [])

/-- `emit B(CRC)` (R75). -/
def crcReadStep (r : Regs) : Regs × List Out := (r, [.B r.crc])

/-- CRC.INIT (R73). -/
def execCrcInit (s : State) : Result := commit s (crcInitStep s.regs)

/-- CRC.BYTE d8 (R74). -/
def execCrcByte (d8 : Byte) (s : State) : Result := commit s (crcByteStep d8 s.regs)

/-- CRC.READ (R75). -/
def execCrcRead (s : State) : Result := commit s (crcReadStep s.regs)

/-- CRC8 a, b: `CRC.INIT; CRC.BYTE a; CRC.BYTE b; CRC.READ` (R57; log entry 16). -/
def execCrc8 (a b : Byte) (s : State) : Result :=
  runAll [execCrcInit, execCrcByte a, execCrcByte b, execCrcRead] s

end Sys2Proof.Machine
end

