-- ==== Sys2Proof/Machine/Flags.lean ====
section
/-! DEFINITION. The two status bits of the block: STOP, kept in a register, and EMPTY, computed at
RX.END (spec/10_state.md rule R14); no other flag exists. -/

namespace Sys2Proof.Machine

/-- The one abnormal condition, a CRC mismatch (spec/60_exceptions.md rule R121): `STOP <- 1`, and
the phase goes back to 0 (spec/42_decode.md rule R103). Nothing else is recorded. -/
def mismatch (r : Regs) : Regs := { r with stop := true, ph := .msb }

/-- `EMPTY = 1 if WCNT = 0 else 0` (spec/42_decode.md rule R104). -/
def emptyFlag (wcnt : Nat) : Bool := wcnt == 0

end Sys2Proof.Machine
end

