-- ==== Sys2Proof/Machine/Decoder.lean ====
section
/-! DEFINITION. The decoder family of spec/42_decode.md: the micro-operations RX.START (R102), RX.BYTE
(R103) and RX.END (R104) as step functions on the registers, their meanings, and the macro-operation
DECW (spec/30_encoding.md rule R57, spec/42_decode.md rules R100, R105). -/

namespace Sys2Proof.Machine

/-- `PH <- 0; STOP <- 0; WCNT <- 0` (R102). -/
def rxStartStep (r : Regs) : Regs × List Out :=
  ({ r with ph := .msb, stop := false, wcnt := 0 }, [])

/-- The received byte closes a valid group: phase 2, not stopped, and equal to CRC (R103). -/
def closesGroup (d8 : Byte) (r : Regs) : Bool := !r.stop && r.ph == .check && d8 == r.crc

/-- The three-phase receiver; the STOP test comes first, then PH, then the comparison (R103, R124). -/
def rxByteStep (d8 : Byte) (r : Regs) : Regs × List Out :=
  if r.stop then (r, [])
  else
    match r.ph with
    | .msb => ({ r with msb := d8, crc := absorb crcInitValue d8, ph := .lsb }, [])
    | .lsb => ({ r with lsb := d8, crc := absorb r.crc d8, ph := .check }, [])
    | .check =>
      if d8 = r.crc then
        ({ r with wcnt := r.wcnt + 1, ph := .msb }, [.W (joinBytes r.msb r.lsb)])
      else (mismatch r, [])

/-- `emit S(WCNT, EMPTY); PH <- 0` (R104). -/
def rxEndStep (r : Regs) : Regs × List Out :=
  ({ r with ph := .msb }, [.S r.wcnt (emptyFlag r.wcnt)])

/-- RX.START (R102). -/
def execRxStart (s : State) : Result := commit s (rxStartStep s.regs)

/-- RX.BYTE d8 (R103). A word that WCNT cannot count is refused (R15, U3; log entry 8). -/
def execRxByte (d8 : Byte) (s : State) : Result :=
  if closesGroup d8 s.regs && !wcntFits s.cfg (s.regs.wcnt + 1) then .refused .wcntOverflow
  else commit s (rxByteStep d8 s.regs)

/-- RX.END (R104). -/
def execRxEnd (s : State) : Result := commit s (rxEndStep s.regs)

/-- DECW raw: `RX.START; RX.BYTE raw[0]; ..; RX.BYTE raw[m-1]; RX.END` (R57; log entry 16). More than
RAW_MAX bytes are refused (R4, U3; log entry 17). -/
def execDecw (raw : List Byte) (s : State) : Result :=
  if rawFits s.cfg raw.length then runAll (execRxStart :: (raw.map execRxByte ++ [execRxEnd])) s
  else .refused .decwOverRawMax

end Sys2Proof.Machine
end

