-- ==== Sys2Proof/Machine/Encoder.lean ====
section
/-! DEFINITION. The encoder family of spec/41_encode.md: the micro-operations TX.OPC (R92) and TX.WORD
(R93) as step functions on the registers, their meanings, and the macro-operations ENCC and ENCW
(spec/30_encoding.md rule R57, spec/41_encode.md rules R90, R91, R94). -/

namespace Sys2Proof.Machine

/-- `emit B(w16[15:8]); emit B(w16[7:0])`; no register is read or written (R92). -/
def txOpcStep (w16 : Word) (r : Regs) : Regs × List Out := (r, [.B (hiByte w16), .B (loByte w16)])

/-- `CRC <- crc8(w16[15:8], w16[7:0])`, then the two data bytes and the new CRC (R93). -/
def txWordStep (w16 : Word) (r : Regs) : Regs × List Out :=
  let c := crc8 (hiByte w16) (loByte w16)
  ({ r with crc := c }, [.B (hiByte w16), .B (loByte w16), .B c])

/-- TX.OPC w16 (R92). -/
def execTxOpc (w16 : Word) (s : State) : Result := commit s (txOpcStep w16 s.regs)

/-- TX.WORD w16 (R93). -/
def execTxWord (w16 : Word) (s : State) : Result := commit s (txWordStep w16 s.regs)

/-- ENCC op: `TX.OPC op` (R57; log entry 16). -/
def execEncc (op : Word) (s : State) : Result := runAll [execTxOpc op] s

/-- ENCW op, words: `TX.OPC op; TX.WORD words[0]; ..; TX.WORD words[n-1]` (R57; log entry 16). More
than NW_MAX words are refused (R4, U3; log entry 17). -/
def execEncw (op : Word) (words : List Word) (s : State) : Result :=
  if nwFits s.cfg words.length then runAll (execTxOpc op :: words.map execTxWord) s
  else .refused .encwOverNwMax

end Sys2Proof.Machine
end

