-- ==== Sys2Proof/Machine/Reserved.lean ====
section
/-! DEFINITION. The reserved selectors (spec/30_encoding.md rule R56). -/

namespace Sys2Proof.Machine

/-- "This spec gives them no behaviour: not a no-operation, not a fault. A model must refuse a
request word with a reserved selector" (R56; spec/93_implementation_defined.md U1). Nothing is read:
the refusal is the same whatever the state and the DIN bits. -/
def execReserved (_opsel : BitVec 4) (_din : BitVec 16) (_s : State) : Result :=
  .refused .reservedSelector

end Sys2Proof.Machine
end

