-- ==== Sys2Proof/Machine/Dispatch.lean ====
section
/-! DEFINITION. One arm per operation of spec/opcode_table.json, each one call of its meaning. -/

namespace Sys2Proof.Machine

def exec (i : Instr) (s : State) : Host.Outcome State Fault Refusal :=
  match i with
  | .crcInit => Sys2Proof.Machine.execCrcInit s
  | .crcByte d8 => Sys2Proof.Machine.execCrcByte d8 s
  | .crcRead => Sys2Proof.Machine.execCrcRead s
  | .txOpc w16 => Sys2Proof.Machine.execTxOpc w16 s
  | .txWord w16 => Sys2Proof.Machine.execTxWord w16 s
  | .rxStart => Sys2Proof.Machine.execRxStart s
  | .rxByte d8 => Sys2Proof.Machine.execRxByte d8 s
  | .rxEnd => Sys2Proof.Machine.execRxEnd s
  | .crc8 a b => Sys2Proof.Machine.execCrc8 a b s
  | .encc op => Sys2Proof.Machine.execEncc op s
  | .encw op words => Sys2Proof.Machine.execEncw op words s
  | .decw raw => Sys2Proof.Machine.execDecw raw s
  | .reserved opsel din => Sys2Proof.Machine.execReserved opsel din s

end Sys2Proof.Machine
end

