-- ==== Sys2Proof/Machine/Step.lean ====
section
/-! DEFINITION. One step of the machine: the block performs the next thing the host presents
(spec/20_memory.md rule R39), and holds its registers while there is none (spec/60_exceptions.md
rule R128). The block fetches nothing (spec/10_state.md rule R16). -/

namespace Sys2Proof.Machine

/-- One step. A request word is decoded and performed (R53, R54), an operation named by the host is
performed (R57; log entry 4), RST resets (R140; log entry 5); with nothing presented nothing changes
(R123, R128, R141; log entry 3). -/
def step (s : State) : Host.Outcome State Fault Refusal :=
  match s.inputs with
  | [] => .next s
  | .request w :: rest => exec (decode w) { s with inputs := rest }
  | .operation i :: rest => exec i { s with inputs := rest }
  | .reset :: rest => .next (applyReset { s with inputs := rest })

/-- The request word of `nbits` bits with value `w` presented next on REQ (log entry 13). -/
def State.withFetchWord (s : State) (nbits w : Nat) : State :=
  { s with inputs := .request (BitVec.ofNat 20 (w % 2 ^ nbits)) :: s.inputs }

end Sys2Proof.Machine
end

