-- ==== Sys2Proof/Machine/Assembler.lean ====
section
/-! DEFINITION. The assembler lines of spec/30_encoding.md rule R58: one operation per line, the
mnemonic in upper case, operands separated by commas, hexadecimal (`0x`) or decimal literals,
sequences in square brackets, comments from `;` to the end of the line; and the request word written
as five hex digits. It is host-side writing, no part of a step (log entry 18). -/

namespace Sys2Proof.Machine

/-- Why a line is no assembler line; each is raised by `assembleLine` and is safe. -/
inductive AsmError where
  /-- A character the notation does not use. -/
  | badCharacter
  /-- Commas, brackets and literals do not make a list of operands. -/
  | badOperands
  /-- The mnemonic with this list of operands is no operation of R54 or R57. -/
  | unknownOperation
  /-- A literal does not fit its operand's 8 or 16 bits. -/
  | outOfRange
deriving DecidableEq, Repr

inductive Token where
  /-- A mnemonic or a literal. -/
  | atom (cs : List Char)
  | comma
  | openBracket
  | closeBracket
deriving DecidableEq, Repr

inductive Operand where
  | literal (n : Nat)
  | sequence (ns : List Nat)
deriving DecidableEq, Repr

/-- "A comment starts with `;` and runs to the end of the line" (R58). -/
def stripComment (line : List Char) : List Char := line.takeWhile (· != ';')

/-- The characters of mnemonics and literals. -/
def isAtomChar (c : Char) : Bool := c.isAlphanum || c == '.'

/-- The characters read so far, latest first, as a token, if there are any. -/
def closeAtom (acc : List Char) (ts : List Token) : List Token :=
  if acc.isEmpty then ts else .atom acc.reverse :: ts

/-- The token a separating character stands for: spaces and tabs stand for none. -/
def separator (c : Char) : Except AsmError (List Token) :=
  if c == ' ' || c == '\t' then .ok []
  else if c == ',' then .ok [.comma]
  else if c == '[' then .ok [.openBracket]
  else if c == ']' then .ok [.closeBracket]
  else .error .badCharacter

/-- The tokens of a line; `acc` holds the atom being read. -/
def lexLine : List Char → List Char → Except AsmError (List Token)
  | [], acc => .ok (closeAtom acc [])
  | c :: cs, acc =>
    if isAtomChar c then lexLine cs (c :: acc)
    else
      match separator c, lexLine cs [] with
      | .ok sep, .ok ts => .ok (closeAtom acc (sep ++ ts))
      | .error e, _ => .error e
      | _, .error e => .error e

/-- The value of a digit below the base, if the character is one. -/
def digitValue (base : Nat) (c : Char) : Option Nat :=
  let v :=
    if '0' ≤ c ∧ c ≤ '9' then c.toNat - '0'.toNat
    else if 'A' ≤ c ∧ c ≤ 'F' then c.toNat - 'A'.toNat + 10
    else if 'a' ≤ c ∧ c ≤ 'f' then c.toNat - 'a'.toNat + 10
    else base
  if v < base then some v else none

/-- The number that digits write, `n` being the digits before them. -/
def readDigits (base : Nat) : List Char → Nat → Option Nat
  | [], n => some n
  | c :: cs, n =>
    match digitValue base c with
    | some d => readDigits base cs (n * base + d)
    | none => none

/-- "a hexadecimal literal with the `0x` prefix (or decimal without)" (R58). -/
def readLiteral (cs : List Char) : Option Nat :=
  match cs with
  | '0' :: 'x' :: d :: ds => readDigits 16 (d :: ds) 0
  | d :: ds => readDigits 10 (d :: ds) 0
  | [] => none

/-- Where the reader of an operand list stands; `acc` is the sequence being read, latest first. -/
inductive OperandMode where
  | start
  | needOperand
  | afterOperand
  | afterBracket
  | needElement (acc : List Nat)
  | afterElement (acc : List Nat)
deriving DecidableEq, Repr

/-- What the next token does to the reader: the operands it completes and where it then stands. -/
def operandStep (mode : OperandMode) (t : Token) : Option (List Operand × OperandMode) :=
  match mode, t with
  | .start, .atom cs => (readLiteral cs).map fun n => ([.literal n], .afterOperand)
  | .start, .openBracket => some ([], .afterBracket)
  | .needOperand, .atom cs => (readLiteral cs).map fun n => ([.literal n], .afterOperand)
  | .needOperand, .openBracket => some ([], .afterBracket)
  | .afterOperand, .comma => some ([], .needOperand)
  | .afterBracket, .closeBracket => some ([.sequence []], .afterOperand)
  | .afterBracket, .atom cs => (readLiteral cs).map fun n => ([], .afterElement [n])
  | .needElement acc, .atom cs => (readLiteral cs).map fun n => ([], .afterElement (n :: acc))
  | .afterElement acc, .comma => some ([], .needElement acc)
  | .afterElement acc, .closeBracket => some ([.sequence acc.reverse], .afterOperand)
  | _, _ => none

/-- The operands of a line, from the tokens after its mnemonic. -/
def readOperands : OperandMode → List Token → Except AsmError (List Operand)
  | mode, [] => if mode = .start ∨ mode = .afterOperand then .ok [] else .error .badOperands
  | mode, t :: ts =>
    match operandStep mode t with
    | none => .error .badOperands
    | some (done, mode') =>
      match readOperands mode' ts with
      | .ok rest => .ok (done ++ rest)
      | .error e => .error e

/-- A literal as an operand of `w` bits, unsigned (R55). -/
def toOperand (w n : Nat) : Except AsmError (BitVec w) :=
  if n < 2 ^ w then .ok (BitVec.ofNat w n) else .error .outOfRange

/-- A sequence of literals as operands of `w` bits. -/
def toOperands (w : Nat) : List Nat → Except AsmError (List (BitVec w))
  | [] => .ok []
  | n :: ns =>
    match toOperand w n, toOperands w ns with
    | .ok v, .ok vs => .ok (v :: vs)
    | .error e, _ => .error e
    | _, .error e => .error e

/-- The operation of a mnemonic and its operands (R54, R57). -/
def buildInstr (mnemonic : String) (ops : List Operand) : Except AsmError Instr :=
  match mnemonic, ops with
  | "CRC.INIT", [] => .ok .crcInit
  | "CRC.BYTE", [.literal n] => (toOperand 8 n).map .crcByte
  | "CRC.READ", [] => .ok .crcRead
  | "TX.OPC", [.literal n] => (toOperand 16 n).map .txOpc
  | "TX.WORD", [.literal n] => (toOperand 16 n).map .txWord
  | "RX.START", [] => .ok .rxStart
  | "RX.BYTE", [.literal n] => (toOperand 8 n).map .rxByte
  | "RX.END", [] => .ok .rxEnd
  | "CRC8", [.literal a, .literal b] =>
    match toOperand 8 a, toOperand 8 b with
    | .ok a, .ok b => .ok (.crc8 a b)
    | _, _ => .error .outOfRange
  | "ENCC", [.literal n] => (toOperand 16 n).map .encc
  | "ENCW", [.literal n, .sequence ws] =>
    match toOperand 16 n, toOperands 16 ws with
    | .ok op, .ok words => .ok (.encw op words)
    | _, _ => .error .outOfRange
  | "DECW", [.sequence bs] => (toOperands 8 bs).map .decw
  | _, _ => .error .unknownOperation

/-- One assembler line (R58): the operation it names, or none where it is blank or a comment. -/
def assembleLine (line : String) : Except AsmError (Option Instr) :=
  match lexLine (stripComment line.toList) [] with
  | .error e => .error e
  | .ok [] => .ok none
  | .ok (.atom m :: ts) =>
    match readOperands .start ts with
    | .error e => .error e
    | .ok ops => (buildInstr (String.ofList m) ops).map some
  | .ok _ => .error .badOperands

/-- The request words of a list of lines, first to last (R16, R57, R58). -/
def assemble : List String → Except AsmError (List Request)
  | [] => .ok []
  | line :: lines =>
    match assembleLine line, assemble lines with
    | .ok none, .ok ws => .ok ws
    | .ok (some i), .ok ws => .ok (encode i ++ ws)
    | .error e, _ => .error e
    | _, .error e => .error e

/-- A hex digit in upper case. -/
def hexDigit (v : Nat) : Char :=
  if v < 10 then Char.ofNat ('0'.toNat + v) else Char.ofNat ('A'.toNat + (v - 10))

/-- A request word "written as five hex digits" (R58). -/
def requestText (w : Request) : String :=
  String.ofList ('0' :: 'x' :: [16, 12, 8, 4, 0].map fun lo => hexDigit ((w.toNat >>> lo) % 16))

end Sys2Proof.Machine
end

