-- ==== Sys2Proof/Machine/CrcModel.lean ====
section
/-! DEFINITION. The usual parameter naming for CRC algorithms (spec/40_crc8.md rule R82): a bit-serial
CRC of width 8 over a message of any length, with its parameters as data, and the block's own choice
of them. -/

namespace Sys2Proof.Machine

/-- The parameters of a CRC of width 8 in the usual naming (R82). -/
structure CrcParams where
  poly : Byte
  init : Byte
  reflectIn : Bool
  reflectOut : Bool
  xorOut : Byte
deriving DecidableEq, Repr

/-- The block's checksum: polynomial 0x31, initial value 0xFF, no reflection, final XOR 0x00
(R3, R82; rows POLY, INIT, reflect, final XOR of R5's table). -/
def crc8wfParams : CrcParams :=
  { poly := 0x31, init := 0xFF, reflectIn := false, reflectOut := false, xorOut := 0x00 }

/-- The packet error code of the SMBus standard, which the block's checksum is not (R82,
spec/93_implementation_defined.md G2). -/
def smbusPecParams : CrcParams :=
  { poly := 0x07, init := 0x00, reflectIn := false, reflectOut := false, xorOut := 0x00 }

/-- One message bit into a shift register that shifts toward bit 7. -/
def shiftInBit (poly c : Byte) (bit : Bool) : Byte :=
  if (c.getLsbD 7 ^^ bit) then (c <<< 1) ^^^ poly else c <<< 1

/-- The bits of a byte, most significant first (spec/20_memory.md rule R33). -/
def bitsMsbFirst (d : Byte) : List Bool :=
  [d.getLsbD 7, d.getLsbD 6, d.getLsbD 5, d.getLsbD 4,
   d.getLsbD 3, d.getLsbD 2, d.getLsbD 1, d.getLsbD 0]

/-- A byte with its bits in the opposite order. -/
def reflectByte (d : Byte) : Byte := BitVec.ofBoolListLE (bitsMsbFirst d)

/-- The bits of one message byte in the order the parameters process them. -/
def messageBits (p : CrcParams) (d : Byte) : List Bool :=
  bitsMsbFirst (if p.reflectIn then reflectByte d else d)

/-- The CRC of a message, bit by bit. -/
def crcSerial (p : CrcParams) (message : List Byte) : Byte :=
  let r := (message.flatMap (messageBits p)).foldl (shiftInBit p.poly) p.init
  (if p.reflectOut then reflectByte r else r) ^^^ p.xorOut

end Sys2Proof.Machine
end

