-- ==== Sys2Proof/Machine/Frame.lean ====
section
/-! DEFINITION. Level T: the operations as pure functions over sequences (spec/00_scope.md rule R2,
spec/10_state.md rule R18). ENCC (spec/41_encode.md rule R90), the group G and ENCW (rule R91), DECW
as the walk of the source's §4.2 and as the indexed pseudocode of spec/42_decode.md rule R100. -/

namespace Sys2Proof.Machine

/-- `ENCC(op) = [ op[15:8], op[7:0] ]` (R90; rows OPC_LEN and byte order of R5's table). -/
def encc (op : Word) : List Byte := [hiByte op, loByte op]

/-- `G(w) = [ w[15:8], w[7:0], crc8(w[15:8], w[7:0]) ]` (R51, R91; rows GROUP_LEN and byte order of
R5's table). -/
def group (w : Word) : List Byte := [hiByte w, loByte w, crc8 (hiByte w) (loByte w)]

/-- `ENCW(op, words) = ENCC(op) ++ G(words[0]) ++ .. ++ G(words[n-1])` (R91). -/
def encw (op : Word) (words : List Word) : List Byte := encc op ++ words.flatMap group

/-- DECW as the document words it: walk `raw` in 3-byte groups, emit each valid group's word, stop at
the first mismatch or when fewer than three bytes are left (R100, R35, R108). -/
def decw : List Byte → List Word
  | a :: b :: c :: rest => if check a b c then joinBytes a b :: decw rest else []
  | [] => []
  | [_] => []
  | [_, _] => []

/-- `k = floor(m / 3)`, the number of complete groups (R34, R100). -/
def groupCount (raw : List Byte) : Nat := raw.length / 3

/-- `valid(g) = check(raw[3g], raw[3g+1], raw[3g+2])`, for `g < k` (R100). -/
def groupValid (raw : List Byte) (g : Nat) : Bool :=
  match memRead raw (3 * g) 3 with
  | [a, b, c] => check a b c
  | _ => false

/-- `raw[3g] ## raw[3g+1]`, for `g < k` (R100). -/
def groupWord (raw : List Byte) (g : Nat) : Option Word :=
  match memRead raw (3 * g) 2 with
  | [a, b] => some (joinBytes a b)
  | _ => none

/-- `j`: the least `g` in `0..k-1` with `valid(g)` false, or `k` if there is none (R100). -/
def firstInvalid (raw : List Byte) : Nat :=
  ((List.range (groupCount raw)).takeWhile (groupValid raw)).length

/-- `DECW(raw) = [ raw[3g] ## raw[3g+1]  for g = 0, 1, .., j-1 ]`, the pseudocode of R100. -/
def decwIndexed (raw : List Byte) : List Word :=
  (List.range (firstInvalid raw)).filterMap (groupWord raw)

end Sys2Proof.Machine
end

