-- ==== Sys2Proof/Safety.lean ====
section
/-! DEFINITION. The terms claims are stated in: the invariant of the machine (spec/10_state.md rule
R20), runs of several operations, and the host's hazard rules (spec/70_reset_and_hazards.md rules
R143, R146). -/

namespace Sys2Proof.Machine

/-- What holds in every state a run reaches: the parameters are ones R4 allows; a stopped decoder is
in phase 0 (R20 part e; part a is the type of PH); WCNT is within its width (R15) and counts words
that are on WOUT (R20 part c); and every status record's empty flag is 1 exactly when its count is 0
(R59). -/
structure StateInv (s : State) : Prop where
  config : configOk s.cfg = true
  stopped : s.regs.stop = true → s.regs.ph = .msb
  counted : wcntFits s.cfg s.regs.wcnt = true
  emitted : s.regs.wcnt ≤ s.wout.length
  records : ∀ r ∈ s.stat, r.empty = emptyFlag r.count

/-- Operations performed one after another from a state (R39). -/
def execAll (ops : List Instr) (s : State) : Result := runAll (ops.map exec) s

/-- The bytes that a list of operations feeds to RX.BYTE. -/
def rxBytes : List Instr → List Byte
  | [] => []
  | .rxByte d8 :: ops => d8 :: rxBytes ops
  | _ :: ops => rxBytes ops

/-- Some complete group of `raw` is invalid: `j < k` in rule R100. -/
def someGroupInvalid (raw : List Byte) : Bool := decide (firstInvalid raw < groupCount raw)

/-- The decoder is between the first and the third byte of a group: "`PH = 1` or `PH = 2` with
`STOP = 0`" (R143 part a). -/
def midGroup (s : State) : Bool := !s.regs.stop && s.regs.ph != .msb

/-- What R143 part (a) lets the host issue while a response is being received, in the state it is
issued in: no operation that writes CRC inside a group, any operation between groups, and no end or
restart of the response. -/
def allowedWhileReceiving (i : Instr) (s : State) : Bool :=
  match i with
  | .crcInit => !midGroup s
  | .crcByte _ => !midGroup s
  | .crcRead => true
  | .txOpc _ => true
  | .txWord _ => !midGroup s
  | .rxStart => false
  | .rxByte _ => true
  | .rxEnd => false
  | .crc8 _ _ => !midGroup s
  | .encc _ => true
  | .encw _ words => !midGroup s && nwFits s.cfg words.length
  | .decw _ => false
  | .reserved _ _ => false

/-- The host keeps R143 part (a) along a list of operations. -/
def hazardFree : List Instr → State → Bool
  | [], _ => true
  | i :: ops, s =>
    allowedWhileReceiving i s &&
      match exec i s with
      | .next t => hazardFree ops t
      | .fault _ => true
      | .refused _ => true

/-- The operations that R143 part (b) lets the host issue inside one checksum computation: those that
do not write CRC. -/
def keepsCrc (i : Instr) : Bool :=
  match i with
  | .crcInit => false
  | .crcByte _ => false
  | .crcRead => true
  | .txOpc _ => true
  | .txWord _ => false
  | .rxStart => true
  | .rxByte _ => false
  | .rxEnd => true
  | .crc8 _ _ => false
  | .encc _ => true
  | .encw _ _ => false
  | .decw _ => false
  | .reserved _ _ => false

/-- The number of items an operation emits on BOUT, when that is fixed by its operands (R59, R94). -/
def boutItems (i : Instr) : Nat :=
  match i with
  | .crcInit => 0
  | .crcByte _ => 0
  | .crcRead => 1
  | .txOpc _ => 2
  | .txWord _ => 3
  | .rxStart => 0
  | .rxByte _ => 0
  | .rxEnd => 0
  | .crc8 _ _ => 1
  | .encc _ => 2
  | .encw _ words => 2 + 3 * words.length
  | .decw _ => 0
  | .reserved _ _ => 0

/-- The number of records an operation emits on STAT (R59, R105). -/
def statItems (i : Instr) : Nat :=
  match i with
  | .crcInit => 0
  | .crcByte _ => 0
  | .crcRead => 0
  | .txOpc _ => 0
  | .txWord _ => 0
  | .rxStart => 0
  | .rxByte _ => 0
  | .rxEnd => 1
  | .crc8 _ _ => 0
  | .encc _ => 0
  | .encw _ _ => 0
  | .decw _ => 1
  | .reserved _ _ => 0

/-- The size parameters admit the operation's operands (R4, U3). -/
def sizeFits (i : Instr) (c : Config) : Bool :=
  match i with
  | .crcInit => true
  | .crcByte _ => true
  | .crcRead => true
  | .txOpc _ => true
  | .txWord _ => true
  | .rxStart => true
  | .rxByte _ => true
  | .rxEnd => true
  | .crc8 _ _ => true
  | .encc _ => true
  | .encw _ words => nwFits c words.length
  | .decw raw => rawFits c raw.length
  | .reserved _ _ => true

/-- The level T operations, which keep no state between them (R18, R57). -/
def isMacro (i : Instr) : Bool :=
  match i with
  | .crcInit => false
  | .crcByte _ => false
  | .crcRead => false
  | .txOpc _ => false
  | .txWord _ => false
  | .rxStart => false
  | .rxByte _ => false
  | .rxEnd => false
  | .crc8 _ _ => true
  | .encc _ => true
  | .encw _ _ => true
  | .decw _ => true
  | .reserved _ _ => false

/-- The 24-bit view of a group, byte 0 first (R51). -/
def groupBits (a b c : Byte) : BitVec 24 :=
  (a.setWidth 24 <<< 16) ||| (b.setWidth 24 <<< 8) ||| c.setWidth 24

/-- The number of set bits of a 24-bit view: between two groups, of their XOR, the number of bits in
which they differ (R81 part e). -/
def bitWeight (v : BitVec 24) : Nat := (List.range 24).countP (fun i => v.getLsbD i)

/-- The state with more items already delivered on its streams, before those it records. -/
def withEarlierOutput (b : List Byte) (w : List Word) (r : List StatRec) (s : State) : State :=
  { s with bout := b ++ s.bout, wout := w ++ s.wout, stat := r ++ s.stat }

end Sys2Proof.Machine
end

