-- ==== Sys2Proof/WellFormed.lean ====
section
/-! DEFINITION. Which terms of `Instr` stand for something the spec has. Every operand value of every
defined operation is legal (spec/30_encoding.md rules R55, R56, R60); the one check is that a
reserved request really has a reserved selector. The size parameters of spec/00_scope.md rule R4 are
the machine's and are checked when the operation runs. -/

namespace Sys2Proof

/-- OPSEL 0x8 to 0xF are the reserved selectors (R56). -/
def reservedOpsel (opsel : BitVec 4) : Bool := decide (8 ≤ opsel.toNat)

/-- The well-formed terms: all of them but a `reserved` with a defined selector. -/
def wellFormed (i : Instr) : Bool :=
  match i with
  | .crcInit => true
  | .crcByte _ => true
  | .crcRead => true
  | .txOpc _ => true
  | .txWord _ => true
  | .rxStart => true
  | .rxByte _ => true
  | .rxEnd => true
  | .crc8 _ _ => true
  | .encc _ => true
  | .encw _ _ => true
  | .decw _ => true
  | .reserved opsel _ => reservedOpsel opsel

end Sys2Proof
end

