-- ==== Sys2Proof/Certificates/Slice0/Obligations.lean ====
section
/-! DEFINITION. The statements for the provers, in the order of spec/: the CRC functions, the
micro-operations, the macro-operations, level T, encodings, and the rules of the whole machine. -/

open Sys2Proof Sys2Proof.Machine

/-! ### The CRC functions (spec/40_crc8.md) -/

/-- R77: one round as bit equations, and as the wires of a shift register. Basis: the spec marks R77
as derived by itself. -/
def Obligations.RoundIsShiftRegisterWithFeedback : Prop :=
  ∀ x : Byte,
    (Machine.round x).getLsbD 0 = x.getLsbD 7 ∧
    (Machine.round x).getLsbD 1 = x.getLsbD 0 ∧
    (Machine.round x).getLsbD 2 = x.getLsbD 1 ∧
    (Machine.round x).getLsbD 3 = x.getLsbD 2 ∧
    (Machine.round x).getLsbD 4 = (x.getLsbD 3 ^^ x.getLsbD 7) ∧
    (Machine.round x).getLsbD 5 = (x.getLsbD 4 ^^ x.getLsbD 7) ∧
    (Machine.round x).getLsbD 6 = x.getLsbD 5 ∧
    (Machine.round x).getLsbD 7 = x.getLsbD 6 ∧
    Machine.round x = roundWires x

/-- R78: one byte in one step is the eight XOR trees on `x = c ^ d`. Basis: the spec marks R78 as
derived by itself. -/
def Obligations.AbsorbIsEightXorTrees : Prop :=
  ∀ acc d : Byte, absorb acc d = absorbTrees (acc ^^^ d)

/-- R79: the table the spec prints holds `absorb(0x00, x)` at `x`, is a permutation of the 256
bytes, and gives the byte step and the checksum by look-up. Basis: the spec marks R79 as derived by
itself. -/
def Obligations.AbsorbIsTableLookup : Prop :=
  absorbTable.length = 256 ∧ absorbTable.Nodup ∧
  absorbTable[0]? = some 0x00 ∧ absorbTable[1]? = some 0x31 ∧
  (∀ x : Byte, absorbTable[x.toNat]? = some (absorb 0x00 x)) ∧
  (∀ acc d : Byte, absorbTable[(acc ^^^ d).toNat]? = some (absorb acc d)) ∧
  (∀ a b : Byte, ∃ t : Byte, absorbTable[(0xFF ^^^ a).toNat]? = some t ∧
    absorbTable[(t ^^^ b).toNat]? = some (crc8 a b))

/-- R33, R82: absorbing the bytes of a message of any length from 0xFF is the bit-serial CRC with
polynomial 0x31, initial value 0xFF, no reflection and final XOR 0x00, each byte taken most
significant bit first; the block's checksum is the case of two bytes. Basis: R82 states this of two
bytes and marks the expansion of 0x31 as derived by itself; the clause for any length is inferred
from R71, R74 and U4. -/
def Obligations.ChecksumIsSerialCrcMsbFirst : Prop :=
  (∀ message : List Byte, message.foldl absorb 0xFF = crcSerial crc8wfParams message) ∧
  (∀ a b : Byte, crc8 a b = crcSerial crc8wfParams [a, b])

/-- R81 part (a): a round is a bijection that fixes 0, with the inverse the spec gives. Basis: the
spec marks R81 as derived by itself. -/
def Obligations.RoundHasTheStatedInverse : Prop :=
  (∀ x : Byte, roundInv (Machine.round x) = x ∧ Machine.round (roundInv x) = x) ∧
    Machine.round 0x00 = 0x00

/-- R81 part (b): the byte step is a bijection in each operand. Basis: the spec marks R81 as derived
by itself. -/
def Obligations.AbsorbIsBijectiveInEachOperand : Prop :=
  (∀ acc : Byte, Function.Bijective (fun d => absorb acc d)) ∧
    (∀ d : Byte, Function.Bijective (fun acc => absorb acc d))

/-- R81 part (c): the checksum is a bijection in each data byte, one third byte makes a valid group,
and a change confined to one byte of a valid group makes it invalid. Basis: the spec marks R81 as
derived by itself. -/
def Obligations.ChecksumIsBijectiveInEachByte : Prop :=
  (∀ a : Byte, Function.Bijective (fun b => crc8 a b)) ∧
  (∀ b : Byte, Function.Bijective (fun a => crc8 a b)) ∧
  (∀ a b : Byte, ∃ t : Byte, ∀ x : Byte, check a b x = true ↔ x = t) ∧
  (∀ a b t x : Byte, check a b t = true →
    (x ≠ a → check x b t = false) ∧ (x ≠ b → check a x t = false) ∧
    (x ≠ t → check a b x = false))

/-- R81 part (d): the checksum is affine over XOR, with constant `crc8(0, 0) = 0x81`. Basis: the
spec marks R81 as derived by itself. -/
def Obligations.ChecksumIsAffine : Prop :=
  crc8 0x00 0x00 = 0x81 ∧
  ∀ a b a' b' : Byte, crc8 a b ^^^ crc8 a' b' ^^^ crc8 (a ^^^ a') (b ^^^ b') = 0x81

/-- R81 part (e): two distinct valid groups differ in at least 4 of their 24 bits and in an even
number of them; so flipping 1, 2, 3 or any odd number of bits of a valid group makes it invalid.
Basis: the spec marks R81 as derived by itself. -/
def Obligations.ValidGroupsDifferInFourBits : Prop :=
  ∀ a b t a' b' t' : Byte, check a b t = true → check a' b' t' = true →
    (a, b, t) ≠ (a', b', t') →
    4 ≤ bitWeight (groupBits a b t ^^^ groupBits a' b' t') ∧
      bitWeight (groupBits a b t ^^^ groupBits a' b' t') % 2 = 0

/-- R81 part (f): a corruption of a valid group confined to 8 consecutive bit positions makes it
invalid. Basis: the spec marks R81 as derived by itself. -/
def Obligations.ShortBurstInvalidatesGroup : Prop :=
  ∀ a b t a' b' t' burst : Byte, ∀ k : Nat, check a b t = true →
    k ≤ 16 → (a, b, t) ≠ (a', b', t') →
    groupBits a b t ^^^ groupBits a' b' t' = burst.setWidth 24 <<< k →
    check a' b' t' = false

/-- R80: the test of a group, its zero-residue form, and the spec's four examples. Basis: the spec
marks the zero-residue form of R80 as derived by itself. -/
def Obligations.GroupCheckIsZeroResidue : Prop :=
  (∀ a b t : Byte, check a b t = true ↔ crc8 a b = t) ∧
  (∀ a b t : Byte, check a b t = true ↔ absorb (crc8 a b) t = 0x00) ∧
  (∀ x t : Byte, absorb x t = 0x00 ↔ x = t) ∧
  check 0xBE 0xEF 0x92 = true ∧ check 0xBE 0xEF 0x93 = false ∧
  check 0x00 0x00 0x00 = false ∧ check 0xFF 0xFF 0xFF = false

/-! ### The micro-operations (spec/40_crc8.md section 3, 41_encode.md and 42_decode.md section 2) -/

/-- R73: CRC.INIT. Its codes, its request word, and its whole effect, in every state. -/
def Obligations.CrcInitSetsAccumulator : Prop :=
  (∀ w : Request, reqOpsel w = 0x0 → decode w = .crcInit) ∧ encode .crcInit = [0x00000] ∧
  ∀ s : State, exec .crcInit s = .next { s with regs := { s.regs with crc := 0xFF } }

/-- R74: CRC.BYTE d8. Its codes, its request word, and its whole effect, in every state; zero when
the byte equals the accumulator. -/
def Obligations.CrcByteAbsorbsOperand : Prop :=
  (∀ w : Request, reqOpsel w = 0x1 → decode w = .crcByte (w.extractLsb' 0 8)) ∧
  (∀ d8 : Byte, encode (.crcByte d8) = [0x10000 ||| d8.setWidth 20]) ∧
  (∀ (s : State) (d8 : Byte), exec (.crcByte d8) s =
    .next { s with regs := { s.regs with crc := absorb s.regs.crc d8 } }) ∧
  (∀ (s : State) (d8 : Byte), s.regs.crc = d8 → exec (.crcByte d8) s =
    .next { s with regs := { s.regs with crc := 0x00 } })

/-- R75: CRC.READ. Its codes, its request word, and its whole effect, in every state. -/
def Obligations.CrcReadEmitsAccumulator : Prop :=
  (∀ w : Request, reqOpsel w = 0x2 → decode w = .crcRead) ∧ encode .crcRead = [0x20000] ∧
  ∀ s : State, exec .crcRead s = .next { s with bout := s.bout ++ [s.regs.crc] }

/-- R74, U4: any number of CRC.BYTE may follow one another; the accumulator folds their operands in
order, and nothing else changes. -/
def Obligations.CrcBytesFoldInOrder : Prop :=
  ∀ (message : List Byte) (s : State), execAll (message.map .crcByte) s =
    .next { s with regs := { s.regs with crc := message.foldl absorb s.regs.crc } }

/-- R92: TX.OPC w16. Its codes, its request word, and its whole effect, in every state. -/
def Obligations.TxOpcEmitsOpcodeBigEndian : Prop :=
  (∀ w : Request, reqOpsel w = 0x3 → decode w = .txOpc (w.extractLsb' 0 16)) ∧
  (∀ w16 : Word, encode (.txOpc w16) = [0x30000 ||| w16.setWidth 20]) ∧
  ∀ (s : State) (w16 : Word), exec (.txOpc w16) s =
    .next { s with bout := s.bout ++ [w16.extractLsb' 8 8, w16.extractLsb' 0 8] }

/-- R93: TX.WORD w16. Its codes, its request word, and its whole effect, in every state. -/
def Obligations.TxWordEmitsGroup : Prop :=
  (∀ w : Request, reqOpsel w = 0x4 → decode w = .txWord (w.extractLsb' 0 16)) ∧
  (∀ w16 : Word, encode (.txWord w16) = [0x40000 ||| w16.setWidth 20]) ∧
  ∀ (s : State) (w16 : Word), exec (.txWord w16) s = .next { s with
    regs := { s.regs with crc := crc8 (w16.extractLsb' 8 8) (w16.extractLsb' 0 8) },
    bout := s.bout ++ [w16.extractLsb' 8 8, w16.extractLsb' 0 8,
      crc8 (w16.extractLsb' 8 8) (w16.extractLsb' 0 8)] }

/-- R102: RX.START. Its codes, its request word, its whole effect in every state; and of the eight
micro-operations it is the only one after which STOP is clear that was set, or WCNT is less than it
was. -/
def Obligations.RxStartOpensResponse : Prop :=
  (∀ w : Request, reqOpsel w = 0x5 → decode w = .rxStart) ∧ encode .rxStart = [0x50000] ∧
  (∀ s : State, exec .rxStart s =
    .next { s with regs := { s.regs with ph := .msb, stop := false, wcnt := 0 } }) ∧
  (∀ (i : Instr) (s t : State), isMacro i = false → exec i s = .next t →
    (s.regs.stop = true ∧ t.regs.stop = false) ∨ t.regs.wcnt < s.regs.wcnt → i = .rxStart)

/-- R103: RX.BYTE d8. Its codes, its request word, and its whole effect in every state in which the
word it may emit can be counted (R15); STOP is tested first, then PH, then the byte. -/
def Obligations.RxByteReceivesGroupBytes : Prop :=
  (∀ w : Request, reqOpsel w = 0x6 → decode w = .rxByte (w.extractLsb' 0 8)) ∧
  (∀ d8 : Byte, encode (.rxByte d8) = [0x60000 ||| d8.setWidth 20]) ∧
  ∀ (s : State) (d8 : Byte), wcntFits s.cfg (s.regs.wcnt + 1) = true →
    exec (.rxByte d8) s = .next
      (if s.regs.stop = true then s
       else if s.regs.ph = .msb then
         { s with regs := { s.regs with msb := d8, crc := absorb 0xFF d8, ph := .lsb } }
       else if s.regs.ph = .lsb then
         { s with regs := { s.regs with lsb := d8, crc := absorb s.regs.crc d8, ph := .check } }
       else if d8 = s.regs.crc then
         { s with regs := { s.regs with wcnt := s.regs.wcnt + 1, ph := .msb },
                  wout := s.wout ++ [joinBytes s.regs.msb s.regs.lsb] }
       else { s with regs := { s.regs with stop := true, ph := .msb } })

/-- R15, U3, R103: over all states, RX.BYTE is refused exactly when the byte closes a valid group whose
word WCNT cannot count, and then as an overflow; every other byte is received as ever, also while
WCNT is at the largest value its width holds. Basis: the refusal is the model's reading of U3, log
entry 8. -/
def Obligations.RxByteRefusedOnlyWhenCountIsFull : Prop :=
  ∀ (s : State) (d8 : Byte),
    ((∃ r : Refusal, exec (.rxByte d8) s = .refused r) ↔
      (s.regs.stop = false ∧ s.regs.ph = .check ∧ d8 = s.regs.crc) ∧
        wcntFits s.cfg (s.regs.wcnt + 1) = false) ∧
    (∀ r : Refusal, exec (.rxByte d8) s = .refused r → r = .wcntOverflow) ∧
    (¬ ((s.regs.stop = false ∧ s.regs.ph = .check ∧ d8 = s.regs.crc) ∧
        wcntFits s.cfg (s.regs.wcnt + 1) = false) →
      exec (.rxByte d8) s = .next
        (if s.regs.stop = true then s
         else if s.regs.ph = .msb then
           { s with regs := { s.regs with msb := d8, crc := absorb 0xFF d8, ph := .lsb } }
         else if s.regs.ph = .lsb then
           { s with regs := { s.regs with lsb := d8, crc := absorb s.regs.crc d8, ph := .check } }
         else if d8 = s.regs.crc then
           { s with regs := { s.regs with wcnt := s.regs.wcnt + 1, ph := .msb },
                    wout := s.wout ++ [joinBytes s.regs.msb s.regs.lsb] }
         else { s with regs := { s.regs with stop := true, ph := .msb } }))

/-- R104: RX.END. Its codes, its request word, and its whole effect, in every state. -/
def Obligations.RxEndReportsCountAndEmpty : Prop :=
  (∀ w : Request, reqOpsel w = 0x7 → decode w = .rxEnd) ∧ encode .rxEnd = [0x70000] ∧
  ∀ s : State, exec .rxEnd s = .next { s with
    regs := { s.regs with ph := .msb },
    stat := s.stat ++ [{ count := s.regs.wcnt, empty := decide (s.regs.wcnt = 0) }] }

/-- R56, U1: a request word with selector 8 to 15 is refused as reserved in every state, as is the
step that meets it; a word with selector 0 to 7, whatever its DIN bits, is never refused as reserved.
(What such a word decodes to is said by EveryWordHasOneTableRow.) -/
def Obligations.ReservedSelectorIsRefused : Prop :=
  (∀ w : Request, 8 ≤ (reqOpsel w).toNat →
    (∀ s : State, exec (decode w) s = .refused .reservedSelector) ∧
    ∀ (s : State) (rest : List HostInput), s.inputs = .request w :: rest →
      step s = .refused .reservedSelector) ∧
  (∀ w : Request, (reqOpsel w).toNat < 8 →
    (∀ s : State, exec (decode w) s ≠ .refused .reservedSelector) ∧
    ∀ (s : State) (rest : List HostInput), s.inputs = .request w :: rest →
      step s ≠ .refused .reservedSelector)

/-! ### The macro-operations -/

/-- R76: CRC8 a, b emits exactly the checksum, leaves it in CRC, and changes nothing else, from any
state; so does the sequence of micro-operations it stands for. Basis: the spec marks R76 as derived
by itself. -/
def Obligations.Crc8EmitsChecksum : Prop :=
  ∀ (a b : Byte) (s : State),
    exec (.crc8 a b) s = .next { s with
      regs := { s.regs with crc := crc8 a b }, bout := s.bout ++ [crc8 a b] } ∧
    execAll [.crcInit, .crcByte a, .crcByte b, .crcRead] s = exec (.crc8 a b) s

/-- R90: ENCC op emits the opcode's two bytes, high byte first, and no checksum, and changes
nothing else, from any state. -/
def Obligations.EnccEmitsTwoBytes : Prop :=
  (∀ op : Word, encc op = [op.extractLsb' 8 8, op.extractLsb' 0 8]) ∧
  ∀ (op : Word) (s : State), exec (.encc op) s = .next { s with bout := s.bout ++ encc op }

/-- R94: from any state, TX.OPC op emits ENCC(op) and changes no register; TX.OPC op and the
TX.WORDs emit ENCW(op, words), leave the last word's checksum in CRC (or CRC as it was when there is
no word), and change nothing else; ENCW of a number of words that NW_MAX admits does the same.
Basis: the spec marks R94 as derived by itself. -/
def Obligations.EncwRefinesPureFunction : Prop :=
  (∀ (op : Word) (s : State), exec (.txOpc op) s = .next { s with bout := s.bout ++ encc op }) ∧
  (∀ (op : Word) (words : List Word) (s : State),
    execAll (.txOpc op :: words.map .txWord) s = .next { s with
      regs := { s.regs with
        crc := (words.getLast?.map fun w => crc8 (hiByte w) (loByte w)).getD s.regs.crc },
      bout := s.bout ++ encw op words }) ∧
  (∀ (op : Word) (words : List Word) (s : State), nwFits s.cfg words.length = true →
    exec (.encw op words) s = .next { s with
      regs := { s.regs with
        crc := (words.getLast?.map fun w => crc8 (hiByte w) (loByte w)).getD s.regs.crc },
      bout := s.bout ++ encw op words })

/-- R105: from any state, DECW raw completes: on WOUT exactly the words of DECW(raw), on STAT one
record with their number and whether there is none, on BOUT nothing; PH is 0, WCNT their number, and
STOP is set exactly when some complete group of `raw` is invalid. It is the sequence RX.START,
RX.BYTE for each byte, RX.END. Basis: the spec marks R105 as derived by itself. -/
def Obligations.DecwRefinesPureFunction : Prop :=
  ∀ (raw : List Byte) (s : State), configOk s.cfg = true → rawFits s.cfg raw.length = true →
    ∃ t : State, exec (.decw raw) s = .next t ∧
      execAll (.rxStart :: (raw.map .rxByte ++ [.rxEnd])) s = .next t ∧
      t.wout = s.wout ++ decw raw ∧
      t.stat = s.stat ++ [{ count := (decw raw).length, empty := decide (decw raw = []) }] ∧
      t.bout = s.bout ∧ t.inputs = s.inputs ∧ t.cfg = s.cfg ∧
      t.regs.ph = .msb ∧ t.regs.wcnt = (decw raw).length ∧
      t.regs.stop = someGroupInvalid raw

/-- U3: an ENCW of more than NW_MAX words and a DECW of more than RAW_MAX bytes are refused, in
every state. Basis: that the refusal comes up front is the model's choice, log entry 17. -/
def Obligations.OversizedTransactionIsRefused : Prop :=
  (∀ (op : Word) (words : List Word) (s : State) (m : Nat), s.cfg.nwMax = some m →
    m < words.length → exec (.encw op words) s = .refused .encwOverNwMax) ∧
  (∀ (raw : List Byte) (s : State) (m : Nat), s.cfg.rawMax = some m →
    m < raw.length → exec (.decw raw) s = .refused .decwOverRawMax)

/-- R142, R18: what a level T operation emits does not depend on the state it starts in: from any two
states it appends the same items to each stream. -/
def Obligations.MacroOutputIgnoresStartingState : Prop :=
  ∀ (i : Instr) (s s' : State), isMacro i = true →
    configOk s.cfg = true → configOk s'.cfg = true →
    sizeFits i s.cfg = true → sizeFits i s'.cfg = true →
    ∃ (b : List Byte) (w : List Word) (r : List StatRec) (t t' : State),
      exec i s = .next t ∧ exec i s' = .next t' ∧
      t.bout = s.bout ++ b ∧ t'.bout = s'.bout ++ b ∧
      t.wout = s.wout ++ w ∧ t'.wout = s'.wout ++ w ∧
      t.stat = s.stat ++ r ∧ t'.stat = s'.stat ++ r

/-- R57, R147: an operation the host names runs in one step as its request words run one step each:
the same state, or the same refusal. Basis: that one step performs a named operation is the model's
choice, log entry 4. -/
def Obligations.OperationEqualsItsRequestWords : Prop :=
  ∀ (i : Instr) (s : State) (rest : List HostInput), wellFormed i = true →
    sizeFits i s.cfg = true →
    Host.Core.run Sys2Proof.core (microCount i)
        { s with inputs := (encode i).map .request ++ rest } =
      step { s with inputs := .operation i :: rest }

/-! ### Level T (spec/41_encode.md section 1, 42_decode.md sections 1 and 4, 20_memory.md) -/

/-- R100: the walk of the source's §4.2 is the indexed pseudocode: the words of the groups before
the first invalid one, at most one per complete group. -/
def Obligations.DecwIsLongestValidRun : Prop :=
  ∀ raw : List Byte, decw raw = decwIndexed raw ∧ (decw raw).length = firstInvalid raw ∧
    firstInvalid raw ≤ raw.length / 3 ∧
    (∀ g < firstInvalid raw, groupValid raw g = true) ∧
    (firstInvalid raw < raw.length / 3 → groupValid raw (firstInvalid raw) = false)

/-- R101: the empty result comes in exactly two cases. -/
def Obligations.EmptyResultInTwoCases : Prop :=
  ∀ raw : List Byte, decw raw = [] ↔
    raw.length < 3 ∨ (3 ≤ raw.length ∧ groupValid raw 0 = false)

/-- R106: `k` valid groups give `k` words, each `(MSB<<8)|LSB`; if groups 0..j-1 are valid and group
j is not, the result is the j words of groups 0..j-1, whatever follows. Basis: the spec marks R106
as derived by itself. -/
def Obligations.DecwTestableLaws : Prop :=
  (∀ (raw : List Byte) (k : Nat), raw.length = 3 * k → (∀ g < k, groupValid raw g = true) →
    (decw raw).length = k ∧ ∀ g < k, (decw raw)[g]? = groupWord raw g) ∧
  (∀ (raw : List Byte) (j : Nat), j < raw.length / 3 → (∀ g < j, groupValid raw g = true) →
    groupValid raw j = false →
    (decw raw).length = j ∧ ∀ g < j, (decw raw)[g]? = groupWord raw g)

/-- R107: decoding the payload of a frame gives its words back; encoding the words of a response of
valid groups gives the response back; a whole frame is misread. Basis: the spec marks R107 as
derived by itself. -/
def Obligations.PayloadRoundTrip : Prop :=
  (∀ (op : Word) (words : List Word), decw ((encw op words).drop 2) = words) ∧
  (∀ (op : Word) (raw : List Byte), raw.length % 3 = 0 →
    (∀ g < raw.length / 3, groupValid raw g = true) → (encw op (decw raw)).drop 2 = raw) ∧
  decw (encw 0x1234 [0xBEEF, 0x0001]) = []

/-- R95: length and layout of a command frame, and ENCW is injective. Basis: the spec marks R95 as
derived by itself. -/
def Obligations.CommandFrameLayout : Prop :=
  (∀ (op : Word) (words : List Word), (encw op words).length = 2 + 3 * words.length ∧
    (encw op words)[0]? = some (hiByte op) ∧ (encw op words)[1]? = some (loByte op) ∧
    ∀ (i : Nat) (w : Word), words[i]? = some w →
      (encw op words)[2 + 3 * i]? = some (hiByte w) ∧
      (encw op words)[2 + 3 * i + 1]? = some (loByte w) ∧
      ∃ x : Byte, (encw op words)[2 + 3 * i + 2]? = some x ∧ check (hiByte w) (loByte w) x = true) ∧
  (∀ (op op' : Word) (words words' : List Word),
    encw op words = encw op' words' → op = op' ∧ words = words')

/-- R35: the one or two bytes after the last complete group are not decoded. -/
def Obligations.LeftoverBytesAreIgnored : Prop :=
  ∀ raw : List Byte, decw raw = decw (raw.take (3 * (raw.length / 3)))

/-- R108: bytes that arrive later never take back a word: the words of a response begin with those of
any part of it read so far. -/
def Obligations.WordsOnceDecodedStay : Prop :=
  ∀ raw more : List Byte, ∃ words : List Word, decw (raw ++ more) = decw raw ++ words

/-- R81 part (g): a response of any length from a bus stuck low or stuck high decodes to the empty
result. Basis: the spec marks R81 as derived by itself. -/
def Obligations.StuckBusGivesEmptyResult : Prop :=
  ∀ n : Nat, decw (List.replicate n 0x00) = [] ∧ decw (List.replicate n 0xFF) = []

/-! ### Encodings (spec/30_encoding.md) -/

/-- R53, R54, R55, R57: every request word of a well-formed operation decodes to the
micro-operation it was written for, with its operand: nothing of an encoding is lost. Basis: that a
reserved word (R56) is the word of an operation of its own is the model's choice, log entry 9. -/
def Obligations.DecodeUndoesEncode : Prop :=
  ∀ i : Instr, wellFormed i = true → (encode i).map decode = expand i

/-- R55: two request words that differ only in bits that the block ignores are the same operation
with the same operand. -/
def Obligations.IgnoredBitsDoNotMatter : Prop :=
  ∀ w w' : Request, (w ^^^ w') &&& ~~~ ignoredMask (reqOpsel w) = 0 → decode w = decode w'

/-- R54, R56: every request word is of exactly one row of the operation table, and decodes to that
row's operation: with selector 8 to 15 to the reserved operation, which carries the word's OPSEL and
DIN, and with selector 0 to 7 to no reserved operation. Basis: that a reserved word decodes to an
operation of its own is the model's choice, log entry 9. -/
def Obligations.EveryWordHasOneTableRow : Prop :=
  (∀ w : Request,
    (opcodeRows.filter (rowMatches w)).map OpcodeRow.mnemonic = [mnemonicOf (decode w)]) ∧
  (∀ w : Request, 8 ≤ (reqOpsel w).toNat → decode w = .reserved (reqOpsel w) (reqDin w)) ∧
  (∀ w : Request, (reqOpsel w).toNat < 8 → ∀ (o : BitVec 4) (d : BitVec 16),
    decode w ≠ .reserved o d)

/-- R54, R55: request words of the spec's single steps and programs (spec/95_test_vectors.md sections
2.6 and 3) and what they decode to; and the first and the last reserved word (R56, S16). Basis: that
a reserved word decodes to an operation of its own is the model's choice, log entry 9. -/
def Obligations.SpecWordsDecode : Prop :=
  decode 0x00000 = .crcInit ∧ decode 0x100BE = .crcByte 0xBE ∧ decode 0x1A5BE = .crcByte 0xBE ∧
  decode 0x20000 = .crcRead ∧ decode 0x3D304 = .txOpc 0xD304 ∧ decode 0x4BEEF = .txWord 0xBEEF ∧
  decode 0x50000 = .rxStart ∧ decode 0x60092 = .rxByte 0x92 ∧ decode 0x70000 = .rxEnd ∧
  decode 0x80000 = .reserved 0x8 0x0000 ∧ decode 0xFFFFF = .reserved 0xF 0xFFFF

/-- R58: the two lines the rule writes out, and a macro line, with their request words. Basis: the
points of notation that R58 leaves open are the model's choice, log entry 18. -/
def Obligations.AssemblerLineExamples : Prop :=
  assemble ["CRC.BYTE 0xBE", "TX.WORD 0xBEEF ; a payload word"] = .ok [0x100BE, 0x4BEEF] ∧
  requestText 0x100BE = "0x100BE" ∧ requestText 0x4BEEF = "0x4BEEF" ∧
  assembleLine "DECW [0xBE, 0xEF, 146]" = .ok (some (.decw [0xBE, 0xEF, 0x92]))

/-! ### The whole machine (spec/10_state.md, 20_memory.md, 60_exceptions.md,
70_reset_and_hazards.md) -/

/-- R21: the state after RST; and it is the state after CRC.INIT then RX.START, but for MSB and LSB.
Basis: the values are the spec's decision D5, log entry 6. -/
def Obligations.ResetValues : Prop :=
  State.reset.regs.crc = 0xFF ∧ State.reset.regs.msb = 0x00 ∧ State.reset.regs.lsb = 0x00 ∧
  State.reset.regs.ph = .msb ∧ State.reset.regs.stop = false ∧ State.reset.regs.wcnt = 0 ∧
  State.reset.bout = [] ∧ State.reset.wout = [] ∧ State.reset.stat = [] ∧
  ∀ s : State, execAll [.crcInit, .rxStart] s = .next { s with
    regs := { State.reset.regs with msb := s.regs.msb, lsb := s.regs.lsb } }

/-- R140: RST, at any time, puts every register at its reset value and empties the streams; it keeps
what the host presents next and the parameters (the model's convention, log entry 5). Basis: what
RST keeps is the model's reading, log entry 5. -/
def Obligations.ResetEventRestoresResetValues : Prop :=
  ∀ (s : State) (rest : List HostInput), s.inputs = .reset :: rest →
    step s = .next { State.reset with inputs := rest, cfg := s.cfg }

/-- R20, R15: the invariant holds at reset. Basis: the parameters at reset are the model's choice,
log entry 7. -/
def Obligations.InvariantHoldsAtReset : Prop := StateInv State.reset

/-- R20, R15: every step from a state that meets the invariant leads to one that meets it. -/
def Obligations.StepKeepsInvariant : Prop :=
  ∀ s t : State, StateInv s → step s = .next t → StateInv t

/-- R16, R39: a step performs the operation that the presented request word decodes to, with the
host moved on to its next input; so it does for the one word of any well-formed operation that has
one, and for an operation the host names. Basis: the list of inputs and named operations are the
model's choices, log entries 2 and 4. -/
def Obligations.StepRunsPresentedOperation : Prop :=
  (∀ (s : State) (w : Request) (rest : List HostInput), s.inputs = .request w :: rest →
    step s = exec (decode w) { s with inputs := rest }) ∧
  (∀ (s : State) (i : Instr) (w : Request) (rest : List HostInput), wellFormed i = true →
    isMacro i = false → encode i = [w] → s.inputs = .request w :: rest →
    step s = exec i { s with inputs := rest }) ∧
  (∀ (s : State) (i : Instr) (rest : List HostInput), s.inputs = .operation i :: rest →
    step s = exec i { s with inputs := rest })

/-- R123, R128: with nothing presented, nothing happens. Basis: log entry 3. -/
def Obligations.IdleBlockHoldsItsState : Prop :=
  ∀ s : State, s.inputs = [] → step s = .next s

/-- R120: every defined operation completes, in every state and for every operand, within the sizes of
R4; for RX.BYTE this asks that one more word can be counted. The reserved operation (R56) is refused
in every state. Basis: that the reserved selectors are an operation is the model's choice, log entry
9. -/
def Obligations.DefinedOperationsComplete : Prop :=
  (∀ (i : Instr) (s : State), (∀ (o : BitVec 4) (d : BitVec 16), i ≠ .reserved o d) →
    configOk s.cfg = true → sizeFits i s.cfg = true →
    (∀ d8 : Byte, i = .rxByte d8 → wcntFits s.cfg (s.regs.wcnt + 1) = true) →
    ∃ t : State, exec i s = .next t) ∧
  ∀ (o : BitVec 4) (d : BitVec 16) (s : State),
    exec (.reserved o d) s = .refused .reservedSelector

/-- R10, R11, R12: which operations may change which register, over all operations, the
macro-operations being what they expand to. -/
def Obligations.RegistersHaveOnlyTheirWriters : Prop :=
  ∀ (i : Instr) (s t : State), exec i s = .next t →
    (t.regs.crc ≠ s.regs.crc →
      i = .crcInit ∨ (∃ d, i = .crcByte d) ∨ (∃ w, i = .txWord w) ∨
      ((∃ d, i = .rxByte d) ∧ s.regs.stop = false ∧ s.regs.ph ≠ .check) ∨
      (∃ a b, i = .crc8 a b) ∨ (∃ op ws, i = .encw op ws ∧ ws ≠ []) ∨ ∃ raw, i = .decw raw) ∧
    (t.regs.msb ≠ s.regs.msb →
      ((∃ d, i = .rxByte d) ∧ s.regs.stop = false ∧ s.regs.ph = .msb) ∨ ∃ raw, i = .decw raw) ∧
    (t.regs.lsb ≠ s.regs.lsb →
      ((∃ d, i = .rxByte d) ∧ s.regs.stop = false ∧ s.regs.ph = .lsb) ∨ ∃ raw, i = .decw raw) ∧
    (t.regs.ph ≠ s.regs.ph →
      i = .rxStart ∨ ((∃ d, i = .rxByte d) ∧ s.regs.stop = false) ∨ i = .rxEnd ∨
      ∃ raw, i = .decw raw) ∧
    (t.regs.wcnt ≠ s.regs.wcnt →
      i = .rxStart ∨ ((∃ d, i = .rxByte d) ∧ s.regs.stop = false ∧ s.regs.ph = .check) ∨
      ∃ raw, i = .decw raw)

/-- R14, R126: the only changes of STOP are that RX.START (or a DECW, which begins with one) clears it
and that a mismatch in phase 2 of RX.BYTE (or in a DECW) sets it. -/
def Obligations.StopIsStickyUntilStart : Prop :=
  ∀ (i : Instr) (s t : State), exec i s = .next t →
    (s.regs.stop = true → t.regs.stop = false → i = .rxStart ∨ ∃ raw, i = .decw raw) ∧
    (s.regs.stop = false → t.regs.stop = true →
      (∃ d, i = .rxByte d ∧ s.regs.ph = .check ∧ d ≠ s.regs.crc) ∨
      ∃ raw, i = .decw raw ∧ someGroupInvalid raw = true)

/-- R19, R41: the streams are append-only and never read, and what the host presents next is not
read by an operation: with other items already delivered and other inputs to come, an operation does
the same to the registers and appends the same items; and no operation changes the inputs to come or
the parameters. Basis: the streams, the inputs and the parameters in the state are the model's, log
entries 1, 2 and 7. -/
def Obligations.OutputsAreNeverReadBack : Prop :=
  ∀ (i : Instr) (s t : State) (b : List Byte) (w : List Word) (r : List StatRec)
    (later : List HostInput), exec i s = .next t →
    exec i { withEarlierOutput b w r s with inputs := later } =
        .next { withEarlierOutput b w r t with inputs := later } ∧
      t.inputs = s.inputs ∧ t.cfg = s.cfg

/-- R59, R57, R103, R105: how many items an operation appends to each stream. On BOUT and STAT the number is fixed by
the operation and its operands. On WOUT, RX.BYTE appends one word exactly when its byte closes a
valid group and none otherwise, DECW the words of its pure function, at most one per complete group,
and every other operation none. -/
def Obligations.OutputItemCounts : Prop :=
  ∀ (i : Instr) (s t : State), exec i s = .next t →
    ∃ (b : List Byte) (w : List Word) (r : List StatRec),
      t.bout = s.bout ++ b ∧ t.wout = s.wout ++ w ∧ t.stat = s.stat ++ r ∧
      b.length = boutItems i ∧ r.length = statItems i ∧
      (∀ d8 : Byte, i = .rxByte d8 → w.length =
        if s.regs.stop = false ∧ s.regs.ph = .check ∧ d8 = s.regs.crc then 1 else 0) ∧
      (∀ raw : List Byte, i = .decw raw →
        w.length = (decw raw).length ∧ w.length ≤ raw.length / 3) ∧
      ((∀ d8 : Byte, i ≠ .rxByte d8) → (∀ raw : List Byte, i ≠ .decw raw) → w = [])

/-- R38: CRC.INIT, CRC.READ, TX.OPC, TX.WORD, RX.START and RX.END are idempotent on the registers:
each completes in every state, and repeated with the same operand it changes no register. -/
def Obligations.RepeatingChangesNoRegister : Prop :=
  ∀ (i : Instr) (s : State),
    (i = .crcInit ∨ i = .crcRead ∨ (∃ w, i = .txOpc w) ∨ (∃ w, i = .txWord w) ∨ i = .rxStart ∨
      i = .rxEnd) →
    ∃ t u : State, exec i s = .next t ∧ exec i t = .next u ∧ u.regs = t.regs

/-- R20 part (c): after RX.START, or after RST, and any operations that do not start another
response, WCNT is the number of words emitted since. Basis: the spec marks R20 as derived by
itself. -/
def Obligations.WcntCountsEmittedWords : Prop :=
  ∀ (ops : List Instr), (∀ o ∈ ops, o ≠ .rxStart ∧ ∀ raw, o ≠ .decw raw) →
    (∀ s t : State, execAll (.rxStart :: ops) s = .next t →
      t.wout.length = s.wout.length + t.regs.wcnt) ∧
    (∀ (s s₀ t : State) (rest : List HostInput), s.inputs = .reset :: rest → step s = .next s₀ →
      execAll ops s₀ = .next t → t.wout.length = t.regs.wcnt)

/-- R20 parts (b) and (d), R105: after RX.START and received bytes only, the words emitted are those of the
groups before the first invalid one, so that none follows a failure; a stop means that some complete
group was invalid; and while not stopped, CRC is the checksum so far of the group being received.
(StoppedDecoderIgnoresBytes has part (b) among any other operations.) Basis: the spec marks R20 as
derived by itself. -/
def Obligations.UndisturbedAccumulatorTracksGroup : Prop :=
  ∀ (raw : List Byte) (s t : State), execAll (.rxStart :: raw.map .rxByte) s = .next t →
    t.wout = s.wout ++ decw raw ∧
    (t.regs.stop = true → someGroupInvalid raw = true) ∧
    (t.regs.stop = false → t.regs.ph = .lsb → t.regs.crc = absorb 0xFF t.regs.msb) ∧
    (t.regs.stop = false → t.regs.ph = .check → t.regs.crc = crc8 t.regs.msb t.regs.lsb)

/-- R143 part (a): a host that, after RX.START, issues among the RX.BYTEs only what the hazard rule
allows gets the words of DECW for the bytes it fed, whatever the other operations are. -/
def Obligations.HazardFreeInterleavingDecodes : Prop :=
  ∀ (ops : List Instr) (s s₀ : State), configOk s.cfg = true →
    rawFits s.cfg (rxBytes ops).length = true →
    exec .rxStart s = .next s₀ → hazardFree ops s₀ = true →
    ∃ t : State, execAll ops s₀ = .next t ∧ t.wout = s.wout ++ decw (rxBytes ops) ∧
      t.regs.wcnt = (decw (rxBytes ops)).length

/-- R143 part (b): operations that do not write CRC may be interleaved in a checksum computation:
the byte read at its end is still the checksum of the two bytes. -/
def Obligations.ChecksumSurvivesSafeInterleaving : Prop :=
  ∀ (a b : Byte) (ops₁ ops₂ ops₃ : List Instr) (s : State),
    (∀ o ∈ ops₁ ++ ops₂ ++ ops₃, keepsCrc o = true) →
    ∃ t u : State,
      execAll (.crcInit :: (ops₁ ++ .crcByte a :: (ops₂ ++ .crcByte b :: ops₃))) s = .next t ∧
      t.regs.crc = crc8 a b ∧ exec .crcRead t = .next u ∧ u.bout = t.bout ++ [crc8 a b]

/-- R143, the spec's example of (a): a TX.WORD inside a received group makes the decoder reject the
valid group BE EF 92, from any state. -/
def Obligations.SharedAccumulatorHazard : Prop :=
  ∀ s : State, execAll
      [.rxStart, .rxByte 0xBE, .txWord 0x0001, .rxByte 0xEF, .rxByte 0x92, .rxEnd] s =
    .next { s with
      regs := { crc := 0x50, msb := 0xBE, lsb := 0xEF, ph := .msb, stop := true, wcnt := 0 },
      bout := s.bout ++ [0x00, 0x01, 0xB0],
      stat := s.stat ++ [{ count := 0, empty := true }] }

/-- R146, R20 part (b): a stopped decoder ignores every byte; no operation but RX.START and DECW makes
it emit a word, count one or leave the stop; and where operations without these two go from a state
that is not stopped to one that is, a byte among them failed its comparison in phase 2, and no word
was emitted since. Basis: the spec marks R20 as derived by itself. -/
def Obligations.StoppedDecoderIgnoresBytes : Prop :=
  (∀ (raw : List Byte) (s : State), s.regs.stop = true →
    execAll (raw.map .rxByte) s = .next s) ∧
  ∀ (ops : List Instr) (s t : State), (∀ o ∈ ops, o ≠ .rxStart ∧ ∀ raw, o ≠ .decw raw) →
    execAll ops s = .next t →
    (s.regs.stop = true →
      t.wout = s.wout ∧ t.regs.wcnt = s.regs.wcnt ∧ t.regs.stop = true) ∧
    (s.regs.stop = false → t.regs.stop = true →
      ∃ (before after : List Instr) (d8 : Byte) (u : State),
        ops = before ++ .rxByte d8 :: after ∧ execAll before s = .next u ∧
        u.regs.stop = false ∧ u.regs.ph = .check ∧ d8 ≠ u.regs.crc ∧ t.wout = u.wout)
end

