-- ==== Sys2Proof/Laws/Crc.lean ====
section
/-! SUPPORT. Small lemmas of the CRC functions and of splitting and joining words: what the rules of
spec/40_crc8.md and spec/20_memory.md are proved from. -/

namespace Sys2Proof.Machine

@[simp] theorem round_zero : round 0#8 = 0#8 := by decide

@[simp] theorem absorb_self (c : Byte) : absorb c c = 0 := by simp [absorb]

/-- `absorb` sees its two operands only through their XOR. -/
theorem absorb_eq_absorb_zero (c d : Byte) : absorb c d = absorb 0 (c ^^^ d) := by simp [absorb]

theorem round_of_top {c : Byte} (h : c.getLsbD 7 = true) : round c = (c <<< 1) ^^^ crcPoly := by
  rw [round, if_pos h]

theorem round_of_not_top {c : Byte} (h : c.getLsbD 7 = false) : round c = c <<< 1 := by
  rw [round, h, if_neg Bool.false_ne_true]

/-- A round is linear over XOR. -/
theorem round_xor (x y : Byte) : round (x ^^^ y) = round x ^^^ round y := by
  cases hx : x.getLsbD 7 <;> cases hy : y.getLsbD 7 <;>
    simp only [round, BitVec.getLsbD_xor, hx, hy, Bool.xor_self, Bool.xor_true, Bool.xor_false,
      Bool.not_false, Bool.false_eq_true, if_true, if_false,
      BitVec.shiftLeft_xor_distrib]
  · exact (BitVec.xor_assoc _ _ _)
  · rw [BitVec.xor_assoc, BitVec.xor_comm (y <<< 1), ← BitVec.xor_assoc]
  · rw [BitVec.xor_assoc (x <<< 1), BitVec.xor_comm crcPoly, BitVec.xor_assoc (y <<< 1)]
    simp

/-- Absorbing a byte is linear over XOR of both operands. -/
theorem absorb_xor (x y x' y' : Byte) :
    absorb (x ^^^ x') (y ^^^ y') = absorb x y ^^^ absorb x' y' := by
  have swap : (x ^^^ x') ^^^ (y ^^^ y') = (x ^^^ y) ^^^ (x' ^^^ y') := by
    ext i hi
    simp only [BitVec.getElem_xor]
    generalize x[i] = p, y[i] = q, x'[i] = p', y'[i] = q'
    revert p q p' q'; decide
  simp only [absorb, swap, round_xor]

@[simp] theorem check_crc8 (a b : Byte) : check a b (crc8 a b) = true := by simp [check]

@[simp] theorem hiByte_joinBytes (a b : Byte) : hiByte (joinBytes a b) = a := by
  ext i hi
  have : ¬ (8 + i < 8) := by omega
  have : 8 + i < 16 := by omega
  simp [hiByte, joinBytes, *]

@[simp] theorem loByte_joinBytes (a b : Byte) : loByte (joinBytes a b) = b := by
  ext i hi
  have : i < 16 := by omega
  simp [loByte, joinBytes, *]

@[simp] theorem joinBytes_hiByte_loByte (w : Word) : joinBytes (hiByte w) (loByte w) = w := by
  ext i hi
  by_cases h : i < 8
  · simp [joinBytes, hiByte, loByte, h, hi]
  · have : i - 8 < 8 := by omega
    have : 8 + (i - 8) = i := by omega
    simp [joinBytes, hiByte, loByte, *]

@[simp] theorem encc_length (op : Word) : (encc op).length = 2 := rfl

@[simp] theorem group_length (w : Word) : (group w).length = 3 := rfl

end Sys2Proof.Machine
end

