-- ==== Sys2Proof/Laws/Frame.lean ====
section
/-! SUPPORT. The walk of DECW group by group, and RX.BYTE phase by phase: the equations that claims
about the decoder are proved from. -/

namespace Sys2Proof.Machine

theorem decw_of_check {a b c : Byte} (rest : List Byte) (h : check a b c = true) :
    decw (a :: b :: c :: rest) = joinBytes a b :: decw rest := by
  simp [decw, h]

theorem decw_of_not_check {a b c : Byte} (rest : List Byte) (h : check a b c = false) :
    decw (a :: b :: c :: rest) = [] := by
  simp [decw, h]

theorem decw_of_short {raw : List Byte} (h : raw.length < 3) : decw raw = [] := by
  match raw, h with
  | [], _ => rfl
  | [_], _ => rfl
  | [_, _], _ => rfl
  | _ :: _ :: _ :: _, h => simp at h; omega

theorem check_group (w : Word) : group w = [hiByte w, loByte w, crc8 (hiByte w) (loByte w)] ∧
    check (hiByte w) (loByte w) (crc8 (hiByte w) (loByte w)) = true := ⟨rfl, check_crc8 _ _⟩

/-- A byte sequence is empty, an incomplete group, or a group and the rest. -/
theorem groups_induction {P : List Byte → Prop} (short : ∀ raw, raw.length < 3 → P raw)
    (group : ∀ a b c rest, P rest → P (a :: b :: c :: rest)) : ∀ raw, P raw
  | [] => short [] (by simp)
  | [x] => short [x] (by simp)
  | [x, y] => short [x, y] (by simp)
  | a :: b :: c :: rest => group a b c rest (groups_induction short group rest)

theorem rxByteStep_stopped {d8 : Byte} {r : Regs} (h : r.stop = true) :
    rxByteStep d8 r = (r, []) := by
  simp [rxByteStep, h]

theorem rxByteStep_msb {d8 : Byte} {r : Regs} (h : r.stop = false) (hp : r.ph = .msb) :
    rxByteStep d8 r = ({ r with msb := d8, crc := absorb crcInitValue d8, ph := .lsb }, []) := by
  simp [rxByteStep, h, hp]

theorem rxByteStep_lsb {d8 : Byte} {r : Regs} (h : r.stop = false) (hp : r.ph = .lsb) :
    rxByteStep d8 r = ({ r with lsb := d8, crc := absorb r.crc d8, ph := .check }, []) := by
  simp [rxByteStep, h, hp]

theorem rxByteStep_match {d8 : Byte} {r : Regs} (h : r.stop = false) (hp : r.ph = .check)
    (hd : d8 = r.crc) :
    rxByteStep d8 r =
      ({ r with wcnt := r.wcnt + 1, ph := .msb }, [.W (joinBytes r.msb r.lsb)]) := by
  simp [rxByteStep, h, hp, hd]

theorem rxByteStep_mismatch {d8 : Byte} {r : Regs} (h : r.stop = false) (hp : r.ph = .check)
    (hd : d8 ≠ r.crc) : rxByteStep d8 r = (mismatch r, []) := by
  simp [rxByteStep, h, hp, hd]

end Sys2Proof.Machine
end

