-- ==== Sys2Proof/Laws/State.lean ====
section
/-! SUPPORT. One lemma per field for each named update of the state: emitting an item, the reset
event, a mismatch, and placing the next request. -/

namespace Sys2Proof.Machine

variable (s : State) (v : Byte) (w : Word) (n : Nat) (e : Bool)

@[simp] theorem emit_B_regs : (emit s (.B v)).regs = s.regs := rfl
@[simp] theorem emit_B_bout : (emit s (.B v)).bout = s.bout ++ [v] := rfl
@[simp] theorem emit_B_wout : (emit s (.B v)).wout = s.wout := rfl
@[simp] theorem emit_B_stat : (emit s (.B v)).stat = s.stat := rfl
@[simp] theorem emit_W_regs : (emit s (.W w)).regs = s.regs := rfl
@[simp] theorem emit_W_bout : (emit s (.W w)).bout = s.bout := rfl
@[simp] theorem emit_W_wout : (emit s (.W w)).wout = s.wout ++ [w] := rfl
@[simp] theorem emit_W_stat : (emit s (.W w)).stat = s.stat := rfl
@[simp] theorem emit_S_regs : (emit s (.S n e)).regs = s.regs := rfl
@[simp] theorem emit_S_bout : (emit s (.S n e)).bout = s.bout := rfl
@[simp] theorem emit_S_wout : (emit s (.S n e)).wout = s.wout := rfl
@[simp] theorem emit_S_stat : (emit s (.S n e)).stat = s.stat ++ [⟨n, e⟩] := rfl
@[simp] theorem emit_inputs (o : Out) : (emit s o).inputs = s.inputs := by cases o <;> rfl
@[simp] theorem emit_cfg (o : Out) : (emit s o).cfg = s.cfg := by cases o <;> rfl

@[simp] theorem applyReset_regs : (applyReset s).regs = Regs.reset := rfl
@[simp] theorem applyReset_bout : (applyReset s).bout = [] := rfl
@[simp] theorem applyReset_wout : (applyReset s).wout = [] := rfl
@[simp] theorem applyReset_stat : (applyReset s).stat = [] := rfl
@[simp] theorem applyReset_inputs : (applyReset s).inputs = s.inputs := rfl
@[simp] theorem applyReset_cfg : (applyReset s).cfg = s.cfg := rfl

@[simp] theorem mismatch_crc (r : Regs) : (mismatch r).crc = r.crc := rfl
@[simp] theorem mismatch_msb (r : Regs) : (mismatch r).msb = r.msb := rfl
@[simp] theorem mismatch_lsb (r : Regs) : (mismatch r).lsb = r.lsb := rfl
@[simp] theorem mismatch_ph (r : Regs) : (mismatch r).ph = .msb := rfl
@[simp] theorem mismatch_stop (r : Regs) : (mismatch r).stop = true := rfl
@[simp] theorem mismatch_wcnt (r : Regs) : (mismatch r).wcnt = r.wcnt := rfl

@[simp] theorem withFetchWord_regs (b x : Nat) : (s.withFetchWord b x).regs = s.regs := rfl
@[simp] theorem withFetchWord_bout (b x : Nat) : (s.withFetchWord b x).bout = s.bout := rfl
@[simp] theorem withFetchWord_wout (b x : Nat) : (s.withFetchWord b x).wout = s.wout := rfl
@[simp] theorem withFetchWord_stat (b x : Nat) : (s.withFetchWord b x).stat = s.stat := rfl
@[simp] theorem withFetchWord_cfg (b x : Nat) : (s.withFetchWord b x).cfg = s.cfg := rfl
@[simp] theorem withFetchWord_inputs (b x : Nat) :
    (s.withFetchWord b x).inputs = .request (BitVec.ofNat 20 (x % 2 ^ b)) :: s.inputs := rfl

end Sys2Proof.Machine
end

