-- ==== Sys2Proof/Laws/Ops.lean ====
section
/-! SUPPORT. What each shared operation can do, said once: emitting items, committing a
micro-operation, running operations one after another, and the size parameters. -/

namespace Sys2Proof.Machine

/-- The bytes among output items, in order. -/
def bytesOf : List Out → List Byte
  | [] => []
  | .B v :: os => v :: bytesOf os
  | .W _ :: os => bytesOf os
  | .S _ _ :: os => bytesOf os

/-- The words among output items, in order. -/
def wordsOf : List Out → List Word
  | [] => []
  | .B _ :: os => wordsOf os
  | .W v :: os => v :: wordsOf os
  | .S _ _ :: os => wordsOf os

/-- The status records among output items, in order. -/
def recordsOf : List Out → List StatRec
  | [] => []
  | .B _ :: os => recordsOf os
  | .W _ :: os => recordsOf os
  | .S n e :: os => ⟨n, e⟩ :: recordsOf os

/-- Emitting items appends to each stream the items that belong to it, and changes nothing else. -/
theorem emitAll_eq (s : State) (os : List Out) :
    emitAll s os = { s with
      bout := s.bout ++ bytesOf os, wout := s.wout ++ wordsOf os, stat := s.stat ++ recordsOf os } := by
  induction os generalizing s with
  | nil => simp [emitAll, bytesOf, wordsOf, recordsOf]
  | cons o os ih =>
    have step : emitAll s (o :: os) = emitAll (emit s o) os := rfl
    rw [step, ih]
    cases o <;> simp [emit, bytesOf, wordsOf, recordsOf]

/-- A micro-operation always completes; it writes the registers and appends its items. -/
theorem commit_eq (s : State) (r : Regs) (os : List Out) :
    commit s (r, os) = .next { s with
      regs := r, bout := s.bout ++ bytesOf os, wout := s.wout ++ wordsOf os,
      stat := s.stat ++ recordsOf os } := by
  simp [commit, emitAll_eq]

@[simp] theorem runAll_nil (s : State) : runAll [] s = .next s := rfl

theorem runAll_cons_of_next {f : State → Result} {fs : List (State → Result)} {s m : State}
    (h : f s = .next m) : runAll (f :: fs) s = runAll fs m := by
  simp [runAll, h]

/-- A run reaches `t` exactly when its first operation reaches a state from which the rest does. -/
theorem runAll_cons_eq_next {f : State → Result} {fs : List (State → Result)} {s t : State} :
    runAll (f :: fs) s = .next t ↔ ∃ m, f s = .next m ∧ runAll fs m = .next t := by
  cases h : f s <;> simp [runAll, h]

theorem runAll_append_of_next {fs gs : List (State → Result)} {s m : State}
    (h : runAll fs s = .next m) : runAll (fs ++ gs) s = runAll gs m := by
  induction fs generalizing s with
  | nil => cases h; rfl
  | cons f fs ih =>
    obtain ⟨n, hn, hrest⟩ := runAll_cons_eq_next.mp h
    rw [List.cons_append, runAll_cons_of_next hn, ih hrest]

/-- A run of two parts reaches `t` exactly when the first part reaches a state from which the second
does. -/
theorem runAll_append_eq_next {fs gs : List (State → Result)} {s t : State} :
    runAll (fs ++ gs) s = .next t ↔ ∃ m, runAll fs s = .next m ∧ runAll gs m = .next t := by
  induction fs generalizing s with
  | nil => simp
  | cons f fs ih =>
    simp only [List.cons_append, runAll_cons_eq_next, ih]
    constructor
    · rintro ⟨m, hf, n, hfs, hgs⟩
      exact ⟨n, ⟨m, hf, hfs⟩, hgs⟩
    · rintro ⟨n, ⟨m, hf, hfs⟩, hgs⟩
      exact ⟨m, hf, n, hfs, hgs⟩

/-- A relation between two states that is reflexive, transitive and kept by every operation of a
list is kept by the run of the list. -/
theorem runAll_induction {R : State → State → Prop} (refl : ∀ s, R s s)
    (trans : ∀ s m t, R s m → R m t → R s t) {fs : List (State → Result)}
    (kept : ∀ f ∈ fs, ∀ s t, f s = .next t → R s t) {s t : State} (h : runAll fs s = .next t) :
    R s t := by
  induction fs generalizing s with
  | nil => cases h; exact refl _
  | cons f fs ih =>
    obtain ⟨m, hf, hrest⟩ := runAll_cons_eq_next.mp h
    exact trans _ _ _ (kept f (by simp) _ _ hf)
      (ih (fun g hg => kept g (by simp [hg])) hrest)

theorem execAll_cons_eq_next {i : Instr} {ops : List Instr} {s t : State} :
    execAll (i :: ops) s = .next t ↔ ∃ m, exec i s = .next m ∧ execAll ops m = .next t :=
  runAll_cons_eq_next

@[simp] theorem wcntFits_zero (c : Config) : wcntFits c 0 = true := by
  cases h : c.wcntW <;> simp [wcntFits, h]

/-- A counter that holds a number holds every smaller one. -/
theorem wcntFits_mono {c : Config} {m n : Nat} (h : wcntFits c n = true) (hmn : m ≤ n) :
    wcntFits c m = true := by
  cases hw : c.wcntW <;> simp_all [wcntFits]
  omega

/-- The parameters that R4 and R5's table allow: a bounded RAW_MAX is at least 27, and a bounded
WCNT_W comes with a bounded RAW_MAX whose groups it can count; NW_MAX is any number. -/
theorem configOk_iff {c : Config} : configOk c = true ↔
    (∀ k, c.rawMax = some k → 27 ≤ k) ∧
    ∀ w, c.wcntW = some w → ∃ k, c.rawMax = some k ∧ k / 3 ≤ 2 ^ w - 1 := by
  unfold configOk
  cases c.rawMax <;> cases c.wcntW <;> simp

/-- Under parameters that R4 allows, WCNT can count the groups of every response DECW accepts. -/
theorem wcntFits_of_rawFits {c : Config} {m : Nat} (ok : configOk c = true)
    (h : rawFits c m = true) : wcntFits c (m / 3) = true := by
  unfold configOk at ok
  unfold rawFits at h
  unfold wcntFits
  cases hr : c.rawMax <;> cases hw : c.wcntW <;> simp_all
  omega

end Sys2Proof.Machine
end

