-- ==== Sys2Proof/Laws/PerInstr.lean ====
section
/-! SUPPORT. A statement about every operation as text, one lemma per constructor: an operation has as
many request words as it is micro-operations (spec/70_reset_and_hazards.md rule R147), and the bits
that the block ignores are written as zero in each of them (spec/30_encoding.md rule R55). -/

namespace Sys2Proof.Laws.RequestWords

open Sys2Proof Sys2Proof.Machine

/-- The request words of a well-formed operation: how many, and their ignored bits zero. -/
def Statement (i : Instr) : Prop :=
  wellFormed i = true →
    (encode i).length = microCount i ∧ ∀ w ∈ encode i, w &&& ignoredMask (reqOpsel w) = 0

theorem opsel_mkRequest (o : BitVec 4) (d : BitVec 16) : reqOpsel (mkRequest o d) = o := by
  ext i hi
  have : 16 + i < 20 := by omega
  simp [reqOpsel, mkRequest, *]

theorem format_n (o : BitVec 4) : mkRequest o 0 &&& ignoredMask o = 0 := by
  revert o; decide

theorem format_b (o : BitVec 4) (d8 : Byte) (h : o = 1 ∨ o = 6) :
    mkRequest o (dinOfByte d8) &&& ignoredMask o = 0 := by
  obtain rfl | rfl := h <;> revert d8 <;> decide

theorem format_w (o : BitVec 4) (w : Word) (h : ignoredMask o = 0) :
    mkRequest o w &&& ignoredMask o = 0 := by
  rw [h]; exact BitVec.and_zero

/-- The claim about one request word of known fields. -/
theorem fields_ok {o : BitVec 4} {d : BitVec 16} (h : mkRequest o d &&& ignoredMask o = 0) :
    mkRequest o d &&& ignoredMask (reqOpsel (mkRequest o d)) = 0 := by
  rw [opsel_mkRequest]; exact h

theorem crcInit : Statement .crcInit := by
  intro _
  simp only [encode, microCount, List.length_singleton, List.mem_singleton, forall_eq, true_and]
  exact fields_ok (format_n 0)

theorem crcByte (d8 : Byte) : Statement (.crcByte d8) := by
  intro _
  simp only [encode, microCount, List.length_singleton, List.mem_singleton, forall_eq, true_and]
  exact fields_ok (format_b 1 d8 (.inl rfl))

theorem crcRead : Statement .crcRead := by
  intro _
  simp only [encode, microCount, List.length_singleton, List.mem_singleton, forall_eq, true_and]
  exact fields_ok (format_n 2)

theorem txOpc (w16 : Word) : Statement (.txOpc w16) := by
  intro _
  simp only [encode, microCount, List.length_singleton, List.mem_singleton, forall_eq, true_and]
  exact fields_ok (format_w 3 w16 rfl)

theorem txWord (w16 : Word) : Statement (.txWord w16) := by
  intro _
  simp only [encode, microCount, List.length_singleton, List.mem_singleton, forall_eq, true_and]
  exact fields_ok (format_w 4 w16 rfl)

theorem rxStart : Statement .rxStart := by
  intro _
  simp only [encode, microCount, List.length_singleton, List.mem_singleton, forall_eq, true_and]
  exact fields_ok (format_n 5)

theorem rxByte (d8 : Byte) : Statement (.rxByte d8) := by
  intro _
  simp only [encode, microCount, List.length_singleton, List.mem_singleton, forall_eq, true_and]
  exact fields_ok (format_b 6 d8 (.inr rfl))

theorem rxEnd : Statement .rxEnd := by
  intro _
  simp only [encode, microCount, List.length_singleton, List.mem_singleton, forall_eq, true_and]
  exact fields_ok (format_n 7)

theorem crc8 (a b : Byte) : Statement (.crc8 a b) := by
  intro _
  refine ⟨rfl, fun w hw => ?_⟩
  simp only [encode, List.mem_cons, List.not_mem_nil, or_false] at hw
  obtain rfl | rfl | rfl | rfl := hw
  · exact fields_ok (format_n 0)
  · exact fields_ok (format_b 1 a (.inl rfl))
  · exact fields_ok (format_b 1 b (.inl rfl))
  · exact fields_ok (format_n 2)

theorem encc (op : Word) : Statement (.encc op) := by
  intro _
  simp only [encode, microCount, List.length_singleton, List.mem_singleton, forall_eq, true_and]
  exact fields_ok (format_w 3 op rfl)

theorem encw (op : Word) (words : List Word) : Statement (.encw op words) := by
  intro _
  refine ⟨by simp [encode, microCount, Nat.add_comm], fun w hw => ?_⟩
  simp only [encode, List.mem_cons, List.mem_map] at hw
  obtain rfl | ⟨x, _, rfl⟩ := hw
  · exact fields_ok (format_w 3 op rfl)
  · exact fields_ok (format_w 4 x rfl)

theorem decw (raw : List Byte) : Statement (.decw raw) := by
  intro _
  refine ⟨by simp [encode, microCount], fun w hw => ?_⟩
  simp only [encode, List.mem_cons, List.mem_append, List.mem_map, List.not_mem_nil,
    or_false] at hw
  obtain rfl | ⟨x, _, rfl⟩ | rfl := hw
  · exact fields_ok (format_n 5)
  · exact fields_ok (format_b 6 x (.inr rfl))
  · exact fields_ok (format_n 7)

theorem ignoredMask_reserved (o : BitVec 4) (h : reservedOpsel o = true) : ignoredMask o = 0 := by
  revert o; decide

theorem reserved (opsel : BitVec 4) (din : BitVec 16) : Statement (.reserved opsel din) := by
  intro h
  simp only [encode, microCount, List.length_singleton, List.mem_singleton, forall_eq, true_and]
  exact fields_ok (format_w opsel din (ignoredMask_reserved opsel h))

end Sys2Proof.Laws.RequestWords
end

