-- ==== Sys2Proof/Tests/Slice0.lean ====
section
/-! SUPPORT. Tests: values from spec/95_test_vectors.md and from the worked examples of the rules, and
a witness for the hypotheses of each statement for the provers. -/

namespace Sys2Proof.Tests

open Sys2Proof Sys2Proof.Machine

/-- A level S state in the order of the vectors: `CRC MSB LSB PH STOP WCNT` (95, notation). -/
def st (crc msb lsb : Byte) (ph : Phase) (stop : Bool) (wcnt : Nat) : State :=
  { State.reset with regs := { crc, msb, lsb, ph, stop, wcnt } }

/-- The state an outcome goes on with. -/
def nextOf (o : Result) : Option State :=
  match o with
  | .next s => some s
  | .fault _ => none
  | .refused _ => none

/-- The refusal an outcome stops with. -/
def refusalOf (o : Result) : Option Refusal :=
  match o with
  | .next _ => none
  | .fault _ => none
  | .refused r => some r

/-- Parameters with small bounds that R4 allows: 2 words, 27 bytes, a 4-bit WCNT. -/
def smallConfig : Config := { nwMax := some 2, rawMax := some 27, wcntW := some 4 }

/-! ### Well-formedness, decoding, encoding -/

/-- Smoke test: the one check of `wellFormed` refuses a reserved operation with a defined selector. -/
theorem test_wellFormed_refuses_defined_selector : wellFormed (.reserved 0x7 0x0000) = false := by
  decide

theorem test_wellFormed_accepts_reserved : wellFormed (.reserved 0x8 0xFFFF) = true := by decide

/-- The CRC family's words, bit by bit from R54 and R55: OPSEL in 19:16, d8 in 7:0. -/
theorem test_decode_crc_family :
    decode 0b00000000000000000000 = .crcInit ∧
    decode 0b00010000000010111110 = .crcByte 0xBE ∧
    decode 0b00100000000000000000 = .crcRead := by decide

/-- The encoder family's words, bit by bit: w16 in 15:0. -/
theorem test_decode_encoder_family :
    decode 0b00111101001100000100 = .txOpc 0xD304 ∧
    decode 0b01001011111011101111 = .txWord 0xBEEF := by decide

/-- The decoder family's words, bit by bit. -/
theorem test_decode_decoder_family :
    decode 0b01010000000000000000 = .rxStart ∧
    decode 0b01100000000010010010 = .rxByte 0x92 ∧
    decode 0b01110000000000000000 = .rxEnd := by decide

/-- The first and the last reserved word, and the last defined one (R56). -/
theorem test_decode_reserved :
    decode 0b10000000000000000000 = .reserved 0x8 0x0000 ∧
    decode 0b11111111111111111111 = .reserved 0xF 0xFFFF ∧
    decode 0b01111111111111111111 = .rxEnd := by decide

/-- S17: junk in the ignored bits of CRC.BYTE. -/
theorem test_decode_ignored_bits : decode 0x1A5BE = .crcByte 0xBE := by decide

/-- The table's rows as the host reads them, and a number of more than 20 bits. -/
theorem test_decodeTableWord :
    decodeTableWord 20 0x4BEEF = some (.txWord 0xBEEF) ∧
    decodeTableWord 24 0x0600BE = some (.rxByte 0xBE) ∧
    decodeTableWord 24 0x100000 = none := by decide

/-- P1 and P2: the request words of two macro-operations. -/
theorem test_encode_macros :
    encode (.crc8 0xBE 0xEF) = [0x00000, 0x100BE, 0x100EF, 0x20000] ∧
    encode (.encw 0x1234 [0xBEEF, 0x0001]) = [0x31234, 0x4BEEF, 0x40001] := by decide

/-- P7: the request words of DECW. -/
theorem test_encode_decw :
    encode (.decw [0xBE, 0xEF, 0x93]) = [0x50000, 0x600BE, 0x600EF, 0x60093, 0x70000] := by decide

/-- The presented word is the first to run, before what the host had in mind. -/
theorem test_withFetchWord :
    (nextOf (step ((st 0x5A 0x11 0x22 .lsb false 3).withFetchWord 24 0x4BEEF))).map State.regs =
      some { crc := 0x92, msb := 0x11, lsb := 0x22, ph := .lsb, stop := false, wcnt := 3 } := by
  decide +kernel

/-! ### The CRC functions (95 sections 2.1 to 2.3) -/

theorem test_round_vectors :
    Machine.round 0x00 = 0x00 ∧ Machine.round 0x01 = 0x02 ∧ Machine.round 0x40 = 0x80 ∧
    Machine.round 0x7F = 0xFE ∧ Machine.round 0x80 = 0x31 ∧ Machine.round 0xC0 = 0xB1 ∧
    Machine.round 0xFF = 0xCF := by decide

theorem test_roundInv_vectors :
    roundInv 0x31 = 0x80 ∧ roundInv 0x02 = 0x01 ∧ roundInv 0xCF = 0xFF := by decide

theorem test_absorb_vectors :
    absorb 0x00 0x01 = 0x31 ∧ absorb 0x00 0x80 = 0x7A ∧ absorb 0xFF 0x00 = 0xAC ∧
    absorb 0xFF 0xFF = 0x00 ∧ absorb 0xFF 0xBE = 0x0C ∧ absorb 0x0C 0xEF = 0x92 ∧
    absorb 0xAC 0x01 = 0xB0 ∧ absorb 0x92 0x92 = 0x00 := by decide

/-- V1 to V18. -/
theorem test_crc8_vectors :
    crc8 0x00 0x01 = 0xB0 ∧ crc8 0xBE 0xEF = 0x92 ∧ crc8 0x00 0x00 = 0x81 ∧
    crc8 0xFF 0xFF = 0xAC ∧ crc8 0x01 0x00 = 0x75 ∧ crc8 0xEF 0xBE = 0xCE ∧
    crc8 0xFF 0x00 = 0x00 ∧ crc8 0x00 0xFF = 0x2D ∧ crc8 0x80 0x00 = 0xA2 ∧
    crc8 0x00 0x80 = 0xFB ∧ crc8 0x7F 0xFF = 0x8F ∧ crc8 0xFF 0xFE = 0x9D ∧
    crc8 0x12 0x34 = 0x37 ∧ crc8 0xAB 0xCD = 0x6F ∧ crc8 0x00 0x21 = 0x36 ∧
    crc8 0x55 0xAA = 0x36 ∧ crc8 0xAA 0x55 = 0x1B ∧ crc8 0xA5 0xA5 = 0x00 := by decide +kernel

/-- G3: the check value of the catalogued parameters on the nine bytes "123456789"; G2: what the
SMBus parameters would give for BE EF. -/
theorem test_crcSerial_catalogue :
    crcSerial crc8wfParams [0x31, 0x32, 0x33, 0x34, 0x35, 0x36, 0x37, 0x38, 0x39] = 0xF7 ∧
    crcSerial smbusPecParams [0xBE, 0xEF] = 0x1A := by decide +kernel

/-! ### Level T (95 sections 2.4 and 2.5) -/

/-- R60, last two columns: the opcodes the surrounding software passes, byte by byte. -/
theorem test_encc_sensor_opcodes :
    [0x2152, 0x3F86, 0xE4B8, 0x3730, 0x3F8D, 0xE00B, 0xEC05, 0x0021, 0x0104, 0x0202, 0x5607,
      0xD304, 0xD206, 0xD210, 0x0471, 0x0446, 0x0300, 0x0467, 0x0316].map encc =
    [[0x21, 0x52], [0x3F, 0x86], [0xE4, 0xB8], [0x37, 0x30], [0x3F, 0x8D], [0xE0, 0x0B],
      [0xEC, 0x05], [0x00, 0x21], [0x01, 0x04], [0x02, 0x02], [0x56, 0x07], [0xD3, 0x04],
      [0xD2, 0x06], [0xD2, 0x10], [0x04, 0x71], [0x04, 0x46], [0x03, 0x00], [0x04, 0x67],
      [0x03, 0x16]] := by decide

/-- E5, E8, E9, E12. -/
theorem test_encw_vectors :
    encw 0x6004 [] = [0x60, 0x04] ∧
    encw 0x1234 [0x0001, 0xBEEF] = [0x12, 0x34, 0x00, 0x01, 0xB0, 0xBE, 0xEF, 0x92] ∧
    encw 0x0000 [0x0000] = [0x00, 0x00, 0x00, 0x00, 0x81] ∧
    encw 0x6004 [0xFF00, 0xA5A5] = [0x60, 0x04, 0xFF, 0x00, 0x00, 0xA5, 0xA5, 0x00] := by decide +kernel

/-- X2 to X10: lengths 1 to 8, and a failing first group. -/
theorem test_decw_short_vectors :
    decw [0xBE] = [] ∧ decw [0xBE, 0xEF] = [] ∧ decw [0xBE, 0xEF, 0x92] = [0xBEEF] ∧
    decw [0xBE, 0xEF, 0x93] = [] ∧ decw [0xBE, 0xEF, 0x92, 0x00] = [0xBEEF] ∧
    decw [0xBE, 0xEF, 0x92, 0x00, 0x01, 0xB0, 0x12, 0x34] = [0xBEEF, 0x0001] := by decide +kernel

/-- X11 to X14, X18 to X20. -/
theorem test_decw_long_vectors :
    decw [0xBE, 0xEF, 0x92, 0x00, 0x01, 0xB0, 0x12, 0x34, 0x37] = [0xBEEF, 0x0001, 0x1234] ∧
    decw [0xBE, 0xEF, 0x92, 0x00, 0x01, 0xB1, 0x12, 0x34, 0x37] = [0xBEEF] ∧
    decw [0xBE, 0xEF, 0x93, 0x00, 0x01, 0xB0, 0x12, 0x34, 0x37] = [] ∧
    decw [0xBE, 0xEF, 0x92, 0x00, 0x01, 0xB0, 0x12, 0x34, 0x36] = [0xBEEF, 0x0001] ∧
    decw [0xFF, 0xFF, 0xAC, 0x7F, 0xFF, 0x8F] = [0xFFFF, 0x7FFF] ∧
    decw [0xEF, 0xBE, 0x92] = [] ∧
    decw [0x12, 0x34, 0xBE, 0xEF, 0x92, 0x00, 0x01, 0xB0] = [] := by decide +kernel

/-- The eight words of 95 section 1.6. -/
theorem test_decw_sen65_scenario :
    decwIndexed [0x00, 0xFA, 0xD8, 0x01, 0x2C, 0x8E, 0x01, 0x5E, 0x14, 0x01, 0x90, 0x4C,
      0x13, 0x88, 0x01, 0x11, 0xF8, 0x20, 0x00, 0x64, 0xFE, 0x00, 0x32, 0x26] =
    [250, 300, 350, 400, 5000, 4600, 100, 50] := by decide +kernel

/-! ### Single steps (95 section 2.6) -/

/-- S1. -/
theorem test_crcInit : nextOf (exec .crcInit (st 0x92 0 0 .msb false 0)) =
    some (st 0xFF 0 0 .msb false 0) := by decide

/-- S2 and S3. -/
theorem test_crcByte :
    nextOf (exec (.crcByte 0xBE) (st 0xFF 0 0 .msb false 0)) = some (st 0x0C 0 0 .msb false 0) ∧
    nextOf (exec (.crcByte 0x0C) (st 0x0C 0 0 .msb false 0)) = some (st 0x00 0 0 .msb false 0) := by
  decide

/-- S4 and S5. -/
theorem test_crcRead :
    nextOf (exec .crcRead (st 0x92 0 0 .msb false 0)) =
      some { st 0x92 0 0 .msb false 0 with bout := [0x92] } ∧
    nextOf (exec .crcRead State.reset) = some { State.reset with bout := [0xFF] } := by decide

/-- S6. -/
theorem test_txOpc : nextOf (exec (.txOpc 0xD304) (st 0x5A 0x11 0x22 .lsb false 3)) =
    some { st 0x5A 0x11 0x22 .lsb false 3 with bout := [0xD3, 0x04] } := by decide

/-- S7. -/
theorem test_txWord : nextOf (exec (.txWord 0xBEEF) (st 0x5A 0x11 0x22 .lsb false 3)) =
    some { st 0x92 0x11 0x22 .lsb false 3 with bout := [0xBE, 0xEF, 0x92] } := by decide +kernel

/-- S8. -/
theorem test_rxStart : nextOf (exec .rxStart (st 0x5A 0x11 0x22 .check true 3)) =
    some (st 0x5A 0x11 0x22 .msb false 0) := by decide

/-- S9 and S10: phases 0 and 1. -/
theorem test_rxByte_data :
    nextOf (exec (.rxByte 0xBE) (st 0x5A 0x11 0x22 .msb false 0)) =
      some (st 0x0C 0xBE 0x22 .lsb false 0) ∧
    nextOf (exec (.rxByte 0xEF) (st 0x0C 0xBE 0x22 .lsb false 0)) =
      some (st 0x92 0xBE 0xEF .check false 0) := by decide

/-- S11, S12 and S13: a match, a mismatch, and a byte while stopped. -/
theorem test_rxByte_check :
    nextOf (exec (.rxByte 0x92) (st 0x92 0xBE 0xEF .check false 0)) =
      some { st 0x92 0xBE 0xEF .msb false 1 with wout := [0xBEEF] } ∧
    nextOf (exec (.rxByte 0x93) (st 0x92 0xBE 0xEF .check false 0)) =
      some (st 0x92 0xBE 0xEF .msb true 0) ∧
    nextOf (exec (.rxByte 0x00) (st 0x92 0xBE 0xEF .msb true 0)) =
      some (st 0x92 0xBE 0xEF .msb true 0) := by decide

/-- S14 and S15. -/
theorem test_rxEnd :
    nextOf (exec .rxEnd (st 0x92 0xBE 0xEF .msb true 0)) =
      some { st 0x92 0xBE 0xEF .msb true 0 with stat := [⟨0, true⟩] } ∧
    nextOf (exec .rxEnd (st 0x8D 0x12 0x01 .lsb false 2)) =
      some { st 0x8D 0x12 0x01 .msb false 2 with stat := [⟨2, false⟩] } := by decide

/-- S16. -/
theorem test_reserved : refusalOf (exec (decode 0x80000) State.reset) = some .reservedSelector := by
  decide

/-- P1. -/
theorem test_crc8 : nextOf (exec (.crc8 0xBE 0xEF) (st 0x00 0x11 0x22 .msb false 0)) =
    some { st 0x92 0x11 0x22 .msb false 0 with bout := [0x92] } := by
  decide +kernel

/-- P6, first line. -/
theorem test_encc : nextOf (exec (.encc 0x0202) State.reset) =
    some { State.reset with bout := [0x02, 0x02] } := by decide

/-- P2. -/
theorem test_encw : nextOf (exec (.encw 0x1234 [0xBEEF, 0x0001]) State.reset) =
    some { st 0xB0 0 0 .msb false 0 with
      bout := [0x12, 0x34, 0xBE, 0xEF, 0x92, 0x00, 0x01, 0xB0] } := by
  decide +kernel

/-- P3. -/
theorem test_decw_truncates :
    nextOf (exec (.decw [0xBE, 0xEF, 0x92, 0x00, 0x01, 0xB1, 0x12, 0x34, 0x37]) State.reset) =
    some { st 0xB0 0x00 0x01 .msb true 1 with wout := [0xBEEF], stat := [⟨1, false⟩] } := by decide +kernel

/-- P4, from the stale stopped state P5 leaves. -/
theorem test_decw_leftover_byte :
    nextOf (exec (.decw [0xBE, 0xEF, 0x92, 0x00, 0x01, 0xB0, 0x12])
      (st 0x50 0xBE 0xEF .msb true 0)) =
    some { st 0x8D 0x12 0x01 .msb false 2 with wout := [0xBEEF, 0x0001], stat := [⟨2, false⟩] } := by
  decide +kernel

/-- RST (R21, R140), and the idle step after it. -/
theorem test_reset_event :
    nextOf (step { st 0x50 0xBE 0xEF .check true 7 with
      bout := [0x00], stat := [⟨0, true⟩], inputs := [.reset] }) = some State.reset ∧
    nextOf (step State.reset) = some State.reset := by decide

/-- R58, and lines that are none. -/
theorem test_assembler_lines :
    assembleLine "CRC8 0xBE, 0xEF" = .ok (some (.crc8 0xBE 0xEF)) ∧
    assembleLine "ENCW 0x1234, [] ; bare opcode" = .ok (some (.encw 0x1234 [])) ∧
    assembleLine "  ; only a comment" = .ok none ∧
    assembleLine "CRC.BYTE 0x100" = .error .outOfRange ∧
    assembleLine "CRC.BYTE" = .error .unknownOperation ∧
    assembleLine "DECW [1,]" = .error .badOperands ∧
    assembleLine "TX.WORD #1" = .error .badCharacter := by
  refine ⟨?_, ?_, ?_, ?_, ?_, ?_, ?_⟩ <;> rfl

/-! ### Witnesses: the hypotheses of each statement for the provers can be met together -/

/-- ChecksumIsBijectiveInEachByte, ValidGroupsDifferInFourBits: two valid groups that differ in
exactly four bits (95 section 2.3). -/
theorem witness_ValidGroupsDifferInFourBits :
    check 0xBE 0xEF 0x92 = true ∧ check 0x26 0x6F 0x92 = true ∧
    ((0xBE, 0xEF, 0x92) : Byte × Byte × Byte) ≠ (0x26, 0x6F, 0x92) ∧
    bitWeight (groupBits 0xBE 0xEF 0x92 ^^^ groupBits 0x26 0x6F 0x92) = 4 := by decide +kernel

/-- ShortBurstInvalidatesGroup, at both ends of the 24 bits. -/
theorem witness_ShortBurstInvalidatesGroup :
    check 0xBE 0xEF 0x92 = true ∧
    groupBits 0xBE 0xEF 0x92 ^^^ groupBits 0xBE 0xEF 0x93 = (0x01 : Byte).setWidth 24 <<< 0 ∧
    groupBits 0xBE 0xEF 0x92 ^^^ groupBits 0x3E 0xEF 0x92 = (0x80 : Byte).setWidth 24 <<< 16 := by
  decide +kernel

/-- The codes of the eight micro-operations: each selector has words, also with ignored bits set. -/
theorem witness_selectors :
    reqOpsel 0x0FFFF = 0x0 ∧ reqOpsel 0x1FFBE = 0x1 ∧ reqOpsel 0x2FFFF = 0x2 ∧
    reqOpsel 0x3D304 = 0x3 ∧ reqOpsel 0x4BEEF = 0x4 ∧ reqOpsel 0x5FFFF = 0x5 ∧
    reqOpsel 0x6FF92 = 0x6 ∧ reqOpsel 0x7FFFF = 0x7 := by decide

/-- CrcByteAbsorbsOperand, last clause. -/
theorem witness_CrcByteAbsorbsOperand : (st 0x0C 0 0 .msb false 0).regs.crc = 0x0C := by decide

/-- RxStartOpensResponse, last clause: STOP set before and clear after, WCNT less. -/
theorem witness_RxStartOpensResponse :
    isMacro .rxStart = false ∧
    exec .rxStart (st 0x5A 0x11 0x22 .check true 3) = .next (st 0x5A 0x11 0x22 .msb false 0) ∧
    (st 0x5A 0x11 0x22 .check true 3).regs.stop = true ∧
    (st 0x5A 0x11 0x22 .msb false 0).regs.stop = false :=
  ⟨rfl, rfl, rfl, rfl⟩

/-- RxByteReceivesGroupBytes: the last count a 4-bit WCNT can reach. -/
theorem witness_RxByteReceivesGroupBytes :
    wcntFits { st 0x92 0xBE 0xEF .check false 14 with cfg := smallConfig }.cfg (14 + 1) = true := by
  decide

/-- RxByteRefusedOnlyWhenCountIsFull: refused and received at a full 4-bit WCNT, and received one
below it. -/
theorem witness_RxByteRefusedOnlyWhenCountIsFull :
    wcntFits smallConfig (15 + 1) = false ∧
    refusalOf (exec (.rxByte 0x92) { st 0x92 0xBE 0xEF .check false 15 with cfg := smallConfig }) =
      some .wcntOverflow ∧
    nextOf (exec (.rxByte 0x93) { st 0x92 0xBE 0xEF .check false 15 with cfg := smallConfig }) =
      some { st 0x92 0xBE 0xEF .msb true 15 with cfg := smallConfig } ∧
    nextOf (exec (.rxByte 0x92) { st 0x92 0xBE 0xEF .check false 14 with cfg := smallConfig }) =
      some { st 0x92 0xBE 0xEF .msb false 15 with cfg := smallConfig, wout := [0xBEEF] } := by decide

/-- ReservedSelectorIsRefused, EveryWordHasOneTableRow, where its two clauses meet. -/
theorem witness_ReservedSelectorIsRefused :
    8 ≤ (reqOpsel 0x80000).toNat ∧ (reqOpsel 0x7FFFF).toNat < 8 ∧
    { State.reset with inputs := [.request 0x80000] }.inputs = .request 0x80000 :: [] := by decide

/-- EncwRefinesPureFunction, DecwRefinesPureFunction: the longest operands of the small parameters;
OversizedTransactionIsRefused: one more. -/
theorem witness_sizes :
    configOk smallConfig = true ∧
    nwFits smallConfig [0xBEEF, 0x0001].length = true ∧
    rawFits smallConfig (List.replicate 27 0xFF).length = true ∧
    smallConfig.nwMax = some 2 ∧ 2 < [0xBEEF, 0x0001, 0x1234].length ∧
    smallConfig.rawMax = some 27 ∧ 27 < (List.replicate 28 0xFF).length := by decide

/-- MacroOutputIgnoresStartingState, DefinedOperationsComplete, OperationEqualsItsRequestWords. -/
theorem witness_macro_premises :
    isMacro (.decw [0xBE, 0xEF, 0x92]) = true ∧ wellFormed (.decw [0xBE, 0xEF, 0x92]) = true ∧
    configOk Config.unbounded = true ∧ configOk smallConfig = true ∧
    sizeFits (.decw [0xBE, 0xEF, 0x92]) Config.unbounded = true ∧
    sizeFits (.decw [0xBE, 0xEF, 0x92]) smallConfig = true ∧
    wcntFits smallConfig ((st 0 0 0 .msb false 0).regs.wcnt + 1) = true := by decide

/-- DecwIsLongestValidRun, DecwTestableLaws: three valid groups (first law, and the loop up to the
first invalid group), and a bad group in the middle (second law). -/
theorem witness_DecwTestableLaws :
    [0xBE, 0xEF, 0x92, 0x00, 0x01, 0xB0].length = 3 * 2 ∧
    (∀ g < 2, groupValid [0xBE, 0xEF, 0x92, 0x00, 0x01, 0xB0] g = true) ∧
    1 < [0xBE, 0xEF, 0x92, 0x00, 0x01, 0xB1].length / 3 ∧
    (∀ g < 1, groupValid [0xBE, 0xEF, 0x92, 0x00, 0x01, 0xB1] g = true) ∧
    groupValid [0xBE, 0xEF, 0x92, 0x00, 0x01, 0xB1] 1 = false ∧
    firstInvalid [0xBE, 0xEF, 0x92, 0x00, 0x01, 0xB1] = 1 := by decide +kernel

/-- PayloadRoundTrip, second clause. -/
theorem witness_PayloadRoundTrip :
    [0xBE, 0xEF, 0x92].length % 3 = 0 ∧
    ∀ g < [0xBE, 0xEF, 0x92].length / 3, groupValid [0xBE, 0xEF, 0x92] g = true := by decide +kernel

/-- CommandFrameLayout: the last word of a frame, and equal frames. -/
theorem witness_CommandFrameLayout :
    ([0xBEEF, 0x0001] : List Word)[1]? = some 0x0001 ∧
    encw 0x1234 [0xBEEF] = [0x12, 0x34, 0xBE, 0xEF, 0x92] ∧
    encw 0x1234 [0xBEEF] = encw 0x1234 [0xBEEF] := by decide +kernel

/-- DecodeUndoesEncode: a defined and a reserved operation. -/
theorem witness_DecodeUndoesEncode :
    wellFormed (.txWord 0xBEEF) = true ∧ wellFormed (.reserved 0xF 0xFFFF) = true := by decide

/-- IgnoredBitsDoNotMatter: formats B and N with ignored bits set, format W with none. -/
theorem witness_IgnoredBitsDoNotMatter :
    (0x100BE ^^^ 0x1A5BE) &&& ~~~ ignoredMask (reqOpsel 0x100BE) = 0 ∧
    (0x00000 ^^^ 0x0FFFF) &&& ~~~ ignoredMask (reqOpsel 0x00000) = 0 ∧
    (0x4BEEF ^^^ 0x4BEEF) &&& ~~~ ignoredMask (reqOpsel 0x4BEEF) = 0 := by decide

/-- ResetEventRestoresResetValues. -/
theorem witness_ResetEventRestoresResetValues :
    { st 0x50 0xBE 0xEF .check true 7 with inputs := [.reset, .request 0] }.inputs =
      .reset :: [.request 0] := by decide

/-- StepRunsPresentedOperation: its three clauses. -/
theorem witness_StepRunsPresentedOperation :
    { State.reset with inputs := [.request 0x600BE] }.inputs = .request 0x600BE :: [] ∧
    wellFormed (.rxByte 0xBE) = true ∧ isMacro (.rxByte 0xBE) = false ∧
    encode (.rxByte 0xBE) = [0x600BE] ∧
    { State.reset with inputs := [.operation (.encc 0x0021)] }.inputs =
      .operation (.encc 0x0021) :: [] := by decide

/-- IdleBlockHoldsItsState. -/
theorem witness_IdleBlockHoldsItsState : State.reset.inputs = [] := by decide

/-- StepKeepsInvariant: a state in the middle of a run meets the invariant, and steps. -/
theorem witness_StepKeepsInvariant :
    StateInv { st 0x92 0xBE 0xEF .check false 1 with
      wout := [0x0001], stat := [⟨0, true⟩], inputs := [.request 0x60092], cfg := smallConfig } ∧
    step { st 0x92 0xBE 0xEF .check false 1 with
      wout := [0x0001], stat := [⟨0, true⟩], inputs := [.request 0x60092], cfg := smallConfig } =
    .next { st 0x92 0xBE 0xEF .msb false 2 with
      wout := [0x0001, 0xBEEF], stat := [⟨0, true⟩], cfg := smallConfig } :=
  ⟨⟨by decide, by decide, by decide, by decide, by decide⟩, rfl⟩

/-- RegistersHaveOnlyTheirWriters, OutputItemCounts, OutputsAreNeverReadBack: steps that change CRC,
MSB and PH, then LSB, then WCNT and WOUT. -/
theorem witness_RegistersHaveOnlyTheirWriters :
    exec (.rxByte 0xBE) (st 0x5A 0x11 0x22 .msb false 0) = .next (st 0x0C 0xBE 0x22 .lsb false 0) ∧
    exec (.rxByte 0xEF) (st 0x0C 0xBE 0x22 .lsb false 0) =
      .next (st 0x92 0xBE 0xEF .check false 0) ∧
    exec (.rxByte 0x92) (st 0x92 0xBE 0xEF .check false 0) =
      .next { st 0x92 0xBE 0xEF .msb false 1 with wout := [0xBEEF] } :=
  ⟨rfl, rfl, rfl⟩

/-- StopIsStickyUntilStart: STOP cleared, and STOP set. -/
theorem witness_StopIsStickyUntilStart :
    exec .rxStart (st 0x92 0xBE 0xEF .msb true 0) = .next (st 0x92 0xBE 0xEF .msb false 0) ∧
    exec (.rxByte 0x93) (st 0x92 0xBE 0xEF .check false 0) =
      .next (st 0x92 0xBE 0xEF .msb true 0) :=
  ⟨rfl, rfl⟩

set_option maxRecDepth 8192 in
/-- WcntCountsEmittedWords and UndisturbedAccumulatorTracksGroup (in phase 1; a run to phase 2 and one
that stops are the same lists one or two bytes longer). -/
theorem witness_runs_after_start :
    (∀ o ∈ [Instr.rxByte 0xBE], o ≠ .rxStart ∧ ∀ raw, o ≠ .decw raw) ∧
    execAll (.rxStart :: [0xBE].map .rxByte) State.reset = .next (st 0x0C 0xBE 0 .lsb false 0) := by
  refine ⟨fun o h => ?_, rfl⟩
  rw [List.mem_singleton.mp h]
  exact ⟨by decide, fun raw => by simp⟩

set_option maxRecDepth 8192 in
/-- UndisturbedAccumulatorTracksGroup: in phase 2, and stopped. -/
theorem witness_UndisturbedAccumulatorTracksGroup :
    execAll (.rxStart :: [0xBE, 0xEF].map .rxByte) State.reset =
      .next (st 0x92 0xBE 0xEF .check false 0) ∧
    execAll (.rxStart :: [0xBE, 0xEF, 0x93].map .rxByte) State.reset =
      .next (st 0x92 0xBE 0xEF .msb true 0) :=
  ⟨rfl, rfl⟩

/-- HazardFreeInterleavingDecodes: a TX.WORD between groups and a CRC.READ inside one; the TX.WORD
inside a group is what the rule forbids. -/
theorem witness_HazardFreeInterleavingDecodes :
    exec .rxStart State.reset = .next State.reset ∧
    rawFits State.reset.cfg
      (rxBytes [.txWord 0x0001, .rxByte 0xBE, .crcRead, .rxByte 0xEF, .rxByte 0x92]).length = true ∧
    hazardFree [.txWord 0x0001, .rxByte 0xBE, .crcRead, .rxByte 0xEF, .rxByte 0x92] State.reset =
      true ∧
    hazardFree [.rxByte 0xBE, .txWord 0x0001] State.reset = false :=
  ⟨rfl, by decide +kernel, by decide +kernel, by decide +kernel⟩

/-- ChecksumSurvivesSafeInterleaving. -/
theorem witness_ChecksumSurvivesSafeInterleaving :
    ∀ o ∈ [Instr.crcRead] ++ [.txOpc 0x1234, .encc 0x0021] ++ [.rxStart, .rxEnd],
      keepsCrc o = true := by decide

/-- StoppedDecoderIgnoresBytes: a stopped state, from which other operations and a byte complete, and
a byte that stops the decoder. -/
theorem witness_StoppedDecoderIgnoresBytes :
    (st 0x92 0xBE 0xEF .msb true 0).regs.stop = true ∧
    execAll [.crcInit, .rxByte 0x26, .rxEnd] (st 0x92 0xBE 0xEF .msb true 0) =
      .next { st 0xFF 0xBE 0xEF .msb true 0 with stat := [⟨0, true⟩] } ∧
    execAll [.crcRead, .rxByte 0x93, .crcInit] (st 0x92 0xBE 0xEF .check false 0) =
      .next { st 0xFF 0xBE 0xEF .msb true 0 with bout := [0x92] } :=
  ⟨rfl, rfl, rfl⟩

set_option maxRecDepth 8192 in
/-- WcntCountsEmittedWords from RST: the reset step, and a word received after it without
RX.START. -/
theorem witness_WcntCountsEmittedWords :
    step { st 0x50 0xBE 0xEF .check true 7 with inputs := [.reset] } = .next State.reset ∧
    execAll [.rxByte 0xBE, .rxByte 0xEF, .rxByte 0x92] State.reset =
      .next { st 0x92 0xBE 0xEF .msb false 1 with wout := [0xBEEF] } :=
  ⟨rfl, rfl⟩

/-- OutputsAreNeverReadBack: an operation that completes, and the same one with a byte delivered
before and a request to come. -/
theorem witness_OutputsAreNeverReadBack :
    exec .crcRead State.reset = .next { State.reset with bout := [0xFF] } ∧
    exec .crcRead { withEarlierOutput [0x01] [] [] State.reset with inputs := [.request 0] } =
      .next { State.reset with bout := [0x01, 0xFF], inputs := [.request 0] } :=
  ⟨rfl, rfl⟩

/-- OutputItemCounts: RX.BYTE with a word and without one; DECW with fewer words than complete groups,
and with a word for every one. -/
theorem witness_OutputItemCounts :
    exec (.rxByte 0x92) (st 0x92 0xBE 0xEF .check false 0) =
      .next { st 0x92 0xBE 0xEF .msb false 1 with wout := [0xBEEF] } ∧
    exec (.rxByte 0x93) (st 0x92 0xBE 0xEF .check false 0) = .next (st 0x92 0xBE 0xEF .msb true 0) ∧
    nextOf (exec (.decw [0xBE, 0xEF, 0x92, 0x00, 0x01, 0xB1]) State.reset) =
      some { st 0xB0 0x00 0x01 .msb true 1 with wout := [0xBEEF], stat := [⟨1, false⟩] } ∧
    nextOf (exec (.decw [0xBE, 0xEF, 0x92, 0x00]) State.reset) =
      some { st 0xAC 0x00 0xEF .msb false 1 with wout := [0xBEEF], stat := [⟨1, false⟩] } :=
  ⟨rfl, rfl, by decide +kernel, by decide +kernel⟩

end Sys2Proof.Tests
end

section
/-! SUPPORT. The rules of spec/10_state.md about the whole state: which operations write which
register (R10 to R14), and that an operation reads neither the streams nor what the host presents
next (R19, R41). -/

namespace Sys2Proof.Machine

/-! ### What a completed operation leaves behind -/

theorem regs_of_commit {s t : State} {p : Regs × List Out} (h : commit s p = .next t) :
    t.regs = p.1 := by
  obtain ⟨r, os⟩ := p
  rw [commit_eq] at h
  cases h; rfl

/-- An ENCW that completes was within NW_MAX and ran its expansion. -/
theorem execEncw_eq_next {op : Word} {words : List Word} {s t : State} :
    execEncw op words s = .next t ↔ nwFits s.cfg words.length = true ∧
      runAll (execTxOpc op :: words.map execTxWord) s = .next t := by
  cases hfit : nwFits s.cfg words.length <;> simp [execEncw, hfit]

/-- A DECW that completes was within RAW_MAX and ran RX.START, its bytes and RX.END. -/
theorem execDecw_eq_next {raw : List Byte} {s t : State} :
    execDecw raw s = .next t ↔ rawFits s.cfg raw.length = true ∧
      ∃ u v, execRxStart s = .next u ∧ runAll (raw.map execRxByte) u = .next v ∧
        execRxEnd v = .next t := by
  cases hfit : rawFits s.cfg raw.length <;>
    simp [execDecw, hfit, runAll_cons_eq_next, runAll_append_eq_next]

/-! ### RX.BYTE phase by phase (R103) -/

section RxByte

variable {d8 : Byte} {s : State}

theorem execRxByte_of_not_closes (h : closesGroup d8 s.regs = false) :
    execRxByte d8 s = commit s (rxByteStep d8 s.regs) := by
  simp [execRxByte, h]

theorem execRxByte_stopped (h : s.regs.stop = true) : execRxByte d8 s = .next s := by
  rw [execRxByte_of_not_closes (by simp [closesGroup, h]), rxByteStep_stopped h, commit_eq]
  simp [bytesOf, wordsOf, recordsOf]

theorem execRxByte_msb (h : s.regs.stop = false) (hp : s.regs.ph = .msb) :
    execRxByte d8 s = .next { s with
      regs := { s.regs with msb := d8, crc := absorb crcInitValue d8, ph := .lsb } } := by
  rw [execRxByte_of_not_closes (by simp [closesGroup, hp]), rxByteStep_msb h hp, commit_eq]
  simp [bytesOf, wordsOf, recordsOf]

theorem execRxByte_lsb (h : s.regs.stop = false) (hp : s.regs.ph = .lsb) :
    execRxByte d8 s = .next { s with
      regs := { s.regs with lsb := d8, crc := absorb s.regs.crc d8, ph := .check } } := by
  rw [execRxByte_of_not_closes (by simp [closesGroup, hp]), rxByteStep_lsb h hp, commit_eq]
  simp [bytesOf, wordsOf, recordsOf]

theorem execRxByte_mismatch (h : s.regs.stop = false) (hp : s.regs.ph = .check)
    (hd : d8 ≠ s.regs.crc) : execRxByte d8 s = .next { s with regs := mismatch s.regs } := by
  rw [execRxByte_of_not_closes (by simp [closesGroup, hd]), rxByteStep_mismatch h hp hd, commit_eq]
  simp [bytesOf, wordsOf, recordsOf]

theorem execRxByte_match (h : s.regs.stop = false) (hp : s.regs.ph = .check)
    (hd : d8 = s.regs.crc) (hfit : wcntFits s.cfg (s.regs.wcnt + 1) = true) :
    execRxByte d8 s = .next { s with
      regs := { s.regs with wcnt := s.regs.wcnt + 1, ph := .msb },
      wout := s.wout ++ [joinBytes s.regs.msb s.regs.lsb] } := by
  simp [execRxByte, hfit, rxByteStep_match h hp hd, commit_eq, bytesOf, wordsOf, recordsOf]

theorem execRxByte_overflow (h : s.regs.stop = false) (hp : s.regs.ph = .check)
    (hd : d8 = s.regs.crc) (hfit : wcntFits s.cfg (s.regs.wcnt + 1) = false) :
    execRxByte d8 s = .refused .wcntOverflow := by
  simp [execRxByte, hfit, closesGroup, h, hp, hd]

end RxByte

/-- The five things an RX.BYTE that completes can do (R103). -/
inductive RxByteEffect (d8 : Byte) (s : State) : State → Prop
  | stopped (hs : s.regs.stop = true) : RxByteEffect d8 s s
  | msb (hs : s.regs.stop = false) (hp : s.regs.ph = .msb) : RxByteEffect d8 s { s with
      regs := { s.regs with msb := d8, crc := absorb crcInitValue d8, ph := .lsb } }
  | lsb (hs : s.regs.stop = false) (hp : s.regs.ph = .lsb) : RxByteEffect d8 s { s with
      regs := { s.regs with lsb := d8, crc := absorb s.regs.crc d8, ph := .check } }
  | mismatch (hs : s.regs.stop = false) (hp : s.regs.ph = .check) (hd : d8 ≠ s.regs.crc) :
      RxByteEffect d8 s { s with regs := mismatch s.regs }
  | accept (hs : s.regs.stop = false) (hp : s.regs.ph = .check) (hd : d8 = s.regs.crc)
      (hfit : wcntFits s.cfg (s.regs.wcnt + 1) = true) : RxByteEffect d8 s { s with
      regs := { s.regs with wcnt := s.regs.wcnt + 1, ph := .msb },
      wout := s.wout ++ [joinBytes s.regs.msb s.regs.lsb] }

theorem rxByteEffect_of_next {d8 : Byte} {s t : State} (h : execRxByte d8 s = .next t) :
    RxByteEffect d8 s t := by
  cases hs : s.regs.stop with
  | true => rw [execRxByte_stopped hs] at h; cases h; exact .stopped hs
  | false =>
    cases hp : s.regs.ph with
    | msb => rw [execRxByte_msb hs hp] at h; cases h; exact .msb hs hp
    | lsb => rw [execRxByte_lsb hs hp] at h; cases h; exact .lsb hs hp
    | check =>
      by_cases hd : d8 = s.regs.crc
      · cases hfit : wcntFits s.cfg (s.regs.wcnt + 1) with
        | true => rw [execRxByte_match hs hp hd hfit] at h; cases h; exact .accept hs hp hd hfit
        | false => rw [execRxByte_overflow hs hp hd hfit] at h; cases h
      · rw [execRxByte_mismatch hs hp hd] at h; cases h; exact .mismatch hs hp hd

/-! ### Who writes the decoder's registers -/

/-- `t` has the registers of `s`, up to CRC: the decoder's five are untouched. -/
def KeepsDecoder (s t : State) : Prop := t.regs = { s.regs with crc := t.regs.crc }

theorem KeepsDecoder.refl (s : State) : KeepsDecoder s s := rfl

theorem KeepsDecoder.trans {s m t : State} (hsm : KeepsDecoder s m) (hmt : KeepsDecoder m t) :
    KeepsDecoder s t := by
  unfold KeepsDecoder at *
  rw [hmt, hsm]

theorem keepsDecoder_of_regs_eq {s t : State} (h : t.regs = s.regs) : KeepsDecoder s t := by
  rw [KeepsDecoder, h]

theorem keepsDecoder_of_commit {s t : State} {p : Regs × List Out} (h : commit s p = .next t)
    (hp : p.1 = { s.regs with crc := p.1.crc }) : KeepsDecoder s t := by
  rw [KeepsDecoder, regs_of_commit h]; exact hp

theorem keepsDecoder_of_runAll {fs : List (State → Result)}
    (kept : ∀ f ∈ fs, ∀ s t, f s = .next t → KeepsDecoder s t) {s t : State}
    (h : runAll fs s = .next t) : KeepsDecoder s t :=
  runAll_induction .refl (fun _ _ _ => .trans) kept h

section Writers

variable {s t : State}

theorem execCrcInit_keepsDecoder (h : execCrcInit s = .next t) : KeepsDecoder s t :=
  keepsDecoder_of_commit h rfl

theorem execCrcByte_keepsDecoder {d8 : Byte} (h : execCrcByte d8 s = .next t) :
    KeepsDecoder s t :=
  keepsDecoder_of_commit h rfl

theorem execCrcRead_regs (h : execCrcRead s = .next t) : t.regs = s.regs := regs_of_commit h

theorem execTxOpc_regs {op : Word} (h : execTxOpc op s = .next t) : t.regs = s.regs :=
  regs_of_commit h

theorem execEncc_regs {op : Word} (h : execEncc op s = .next t) : t.regs = s.regs := by
  obtain ⟨m, hop, ⟨⟩⟩ := runAll_cons_eq_next.mp h
  exact execTxOpc_regs hop

theorem execTxWord_keepsDecoder {w : Word} (h : execTxWord w s = .next t) : KeepsDecoder s t :=
  keepsDecoder_of_commit h rfl

theorem execCrc8_keepsDecoder {a b : Byte} (h : execCrc8 a b s = .next t) : KeepsDecoder s t := by
  refine keepsDecoder_of_runAll (fun f hf s t hst => ?_) h
  simp only [List.mem_cons, List.not_mem_nil, or_false] at hf
  obtain rfl | rfl | rfl | rfl := hf
  · exact execCrcInit_keepsDecoder hst
  · exact execCrcByte_keepsDecoder hst
  · exact execCrcByte_keepsDecoder hst
  · exact keepsDecoder_of_regs_eq (execCrcRead_regs hst)

theorem execEncw_keepsDecoder {op : Word} {words : List Word}
    (h : execEncw op words s = .next t) : KeepsDecoder s t := by
  refine keepsDecoder_of_runAll (fun f hf s t hst => ?_) (execEncw_eq_next.mp h).2
  simp only [List.mem_cons, List.mem_map] at hf
  obtain rfl | ⟨w, _, rfl⟩ := hf
  · exact keepsDecoder_of_regs_eq (execTxOpc_regs hst)
  · exact execTxWord_keepsDecoder hst

end Writers

/-- What an operation that completes can do to the decoder's registers (R12 to R15): nothing, or it
is of the decoder family. -/
inductive DecoderEffect : Instr → State → State → Prop
  | keeps {i : Instr} {s t : State} (h : KeepsDecoder s t) : DecoderEffect i s t
  | start {s t : State} (h : t.regs = { s.regs with ph := .msb, stop := false, wcnt := 0 }) :
      DecoderEffect .rxStart s t
  | byte {d8 : Byte} {s t : State} (h : RxByteEffect d8 s t) : DecoderEffect (.rxByte d8) s t
  | finish {s t : State} (h : t.regs = { s.regs with ph := .msb }) : DecoderEffect .rxEnd s t
  | decw {raw : List Byte} {s t : State} (h : execDecw raw s = .next t) :
      DecoderEffect (.decw raw) s t

theorem decoderEffect_of_next {i : Instr} {s t : State} (h : exec i s = .next t) :
    DecoderEffect i s t := by
  cases i with
  | crcInit => exact .keeps (execCrcInit_keepsDecoder h)
  | crcByte d8 => exact .keeps (execCrcByte_keepsDecoder h)
  | crcRead => exact .keeps (keepsDecoder_of_regs_eq (execCrcRead_regs h))
  | txOpc w16 => exact .keeps (keepsDecoder_of_regs_eq (execTxOpc_regs h))
  | txWord w16 => exact .keeps (execTxWord_keepsDecoder h)
  | rxStart => exact .start (regs_of_commit h)
  | rxByte d8 => exact .byte (rxByteEffect_of_next h)
  | rxEnd => exact .finish (regs_of_commit h)
  | crc8 a b => exact .keeps (execCrc8_keepsDecoder h)
  | encc op => exact .keeps (keepsDecoder_of_regs_eq (execEncc_regs h))
  | encw op words => exact .keeps (execEncw_keepsDecoder h)
  | decw raw => exact .decw h
  | reserved opsel din => cases h

/-- The writers of CRC (R11). -/
theorem crc_writers {i : Instr} {s t : State} (h : exec i s = .next t)
    (hne : t.regs.crc ≠ s.regs.crc) :
    i = .crcInit ∨ (∃ d, i = .crcByte d) ∨ (∃ w, i = .txWord w) ∨
      ((∃ d, i = .rxByte d) ∧ s.regs.stop = false ∧ s.regs.ph ≠ .check) ∨
      (∃ a b, i = .crc8 a b) ∨ (∃ op ws, i = .encw op ws ∧ ws ≠ []) ∨ ∃ raw, i = .decw raw := by
  have changed : t.regs ≠ s.regs := fun heq => hne (congrArg Regs.crc heq)
  cases i with
  | crcInit | crcByte | txWord | crc8 | decw => simp
  | crcRead => exact absurd (execCrcRead_regs h) changed
  | txOpc w16 => exact absurd (execTxOpc_regs h) changed
  | encc op => exact absurd (execEncc_regs h) changed
  | rxStart => exact absurd (congrArg Regs.crc (regs_of_commit h)) hne
  | rxEnd => exact absurd (congrArg Regs.crc (regs_of_commit h)) hne
  | rxByte d8 =>
    cases rxByteEffect_of_next h with
    | stopped | mismatch | accept => exact absurd rfl hne
    | msb hs hp | lsb hs hp => simp [hs, hp]
  | encw op words =>
    have nonempty : words ≠ [] := by
      rintro rfl
      exact changed (execEncc_regs (execEncw_eq_next.mp h).2)
    simp [nonempty]
  | reserved opsel din => cases h

/-- Settles O50: CRC by `crc_writers`, the decoder's registers by the cases of
`decoderEffect_of_next`. -/
theorem registersHaveOnlyTheirWriters : Obligations.RegistersHaveOnlyTheirWriters := by
  intro i s t h
  refine ⟨crc_writers h, ?_⟩
  cases decoderEffect_of_next h with
  | keeps hk => rw [hk]; simp
  | start hr => rw [hr]; simp
  | finish hr => rw [hr]; simp
  | decw => simp
  | byte hb =>
    cases hb with
    | stopped => simp
    | msb hs hp | lsb hs hp | mismatch hs hp | accept hs hp => simp [hs, hp]

/-! ### Complete groups, first to last (R34, R100) -/

section Groups

variable {a b c : Byte} (rest : List Byte)

theorem groupCount_cons : groupCount (a :: b :: c :: rest) = groupCount rest + 1 := by
  simp only [groupCount, List.length_cons]; omega

theorem groupValid_zero : groupValid (a :: b :: c :: rest) 0 = check a b c := by
  simp [groupValid, memRead]

theorem groupValid_succ (g : Nat) :
    groupValid (a :: b :: c :: rest) (g + 1) = groupValid rest g := by
  simp [groupValid, memRead, Nat.mul_add]

theorem firstInvalid_of_not_check (h : check a b c = false) :
    firstInvalid (a :: b :: c :: rest) = 0 := by
  simp [firstInvalid, groupCount_cons, List.range_succ_eq_map, groupValid_zero, h]

theorem firstInvalid_of_check (h : check a b c = true) :
    firstInvalid (a :: b :: c :: rest) = firstInvalid rest + 1 := by
  have shift : groupValid (a :: b :: c :: rest) ∘ Nat.succ = groupValid rest :=
    funext (groupValid_succ rest)
  simp [firstInvalid, groupCount_cons, List.range_succ_eq_map, List.takeWhile_map,
    groupValid_zero, h, shift]

theorem someGroupInvalid_of_not_check (h : check a b c = false) :
    someGroupInvalid (a :: b :: c :: rest) = true := by
  simp [someGroupInvalid, firstInvalid_of_not_check rest h, groupCount_cons]

theorem someGroupInvalid_of_check (h : check a b c = true) :
    someGroupInvalid (a :: b :: c :: rest) = someGroupInvalid rest := by
  simp [someGroupInvalid, firstInvalid_of_check rest h, groupCount_cons]

end Groups

/-! ### STOP (R14, R126) -/

/-- At the start of a group, two received bytes are held in MSB and LSB, with their checksum in
CRC. -/
theorem runAll_firstTwoBytes {s : State} (hs : s.regs.stop = false) (hp : s.regs.ph = .msb)
    (a b : Byte) (fs : List (State → Result)) :
    runAll (execRxByte a :: execRxByte b :: fs) s = runAll fs { s with
      regs := { s.regs with crc := crc8 a b, msb := a, lsb := b, ph := .check } } := by
  rw [runAll_cons_of_next (execRxByte_msb hs hp)]
  exact runAll_cons_of_next (execRxByte_lsb (by exact hs) (by rfl))

/-- A receiver that is not stopped and at the start of a group stops, while it receives `raw`, only
if some complete group of `raw` is invalid. -/
theorem someGroupInvalid_of_stop {raw : List Byte} {s t : State} (hs : s.regs.stop = false)
    (hp : s.regs.ph = .msb) (hrun : runAll (raw.map execRxByte) s = .next t)
    (hstop : t.regs.stop = true) : someGroupInvalid raw = true := by
  induction raw using groups_induction generalizing s with
  | short raw hlen =>
    match raw, hlen with
    | [], _ => cases hrun; simp [hs] at hstop
    | [a], _ =>
      rw [List.map_singleton, runAll_cons_of_next (execRxByte_msb hs hp)] at hrun
      cases hrun; simp [hs] at hstop
    | [a, b], _ =>
      rw [List.map_cons, List.map_singleton, runAll_firstTwoBytes hs hp] at hrun
      cases hrun; simp [hs] at hstop
    | _ :: _ :: _ :: _, hlen => simp at hlen; omega
  | group a b c rest ih =>
    simp only [List.map_cons, runAll_firstTwoBytes hs hp] at hrun
    obtain ⟨m, hthird, hrest⟩ := runAll_cons_eq_next.mp hrun
    cases rxByteEffect_of_next hthird with
    | stopped hs' => simp [hs] at hs'
    | msb _ hph | lsb _ hph => cases hph
    | mismatch _ _ hne =>
      exact someGroupInvalid_of_not_check rest (by simpa [check] using Ne.symm hne)
    | accept _ _ heq =>
      rw [someGroupInvalid_of_check rest (by simpa [check] using heq.symm)]
      exact ih (by exact hs) (by rfl) hrest

/-- Settles O51: the only cases of `decoderEffect_of_next` that write STOP are RX.START, a mismatch
and DECW. -/
theorem stopIsStickyUntilStart : Obligations.StopIsStickyUntilStart := by
  intro i s t h
  cases decoderEffect_of_next h with
  | keeps hk => rw [hk]; simp +contextual
  | start hr => rw [hr]; simp
  | finish hr => rw [hr]; simp +contextual
  | byte hb =>
    cases hb with
    | stopped hs => simp [hs]
    | msb hs | lsb hs | accept hs => simp [hs]
    | mismatch hs hp hd => simp [hs, hp, hd]
  | @decw raw _ _ hdecw =>
    obtain ⟨_, u, v, hstart, hbytes, hend⟩ := execDecw_eq_next.mp hdecw
    have hu := regs_of_commit hstart
    have hv := regs_of_commit hend
    refine ⟨fun _ _ => .inr ⟨raw, rfl⟩, fun _ hstop => .inr ⟨raw, rfl, ?_⟩⟩
    exact someGroupInvalid_of_stop (by rw [hu]; rfl) (by rw [hu]; rfl) hbytes
      (by rw [hv] at hstop; exact hstop)

/-! ### The streams and the inputs to come are not read (R19, R41) -/

/-- The same machine with items already delivered on the streams, and other inputs to come. -/
def elsewhere (b : List Byte) (w : List Word) (r : List StatRec) (later : List HostInput)
    (s : State) : State :=
  { withEarlierOutput b w r s with inputs := later }

/-- Where the meaning `f` completes, it completes alike with any earlier output and any inputs to
come, and it changes neither the inputs nor the parameters. -/
def ReadsNoOutput (f : State → Result) : Prop :=
  ∀ s t : State, f s = .next t →
    (∀ b w r later, f (elsewhere b w r later s) = .next (elsewhere b w r later t)) ∧
      t.inputs = s.inputs ∧ t.cfg = s.cfg

theorem readsNoOutput_commit (step : Regs → Regs × List Out) :
    ReadsNoOutput (fun s => commit s (step s.regs)) := by
  intro s t h
  rcases hstep : step s.regs with ⟨regs, os⟩
  simp only [hstep, commit_eq] at h
  cases h
  refine ⟨fun b w r later => ?_, rfl, rfl⟩
  have same : (elsewhere b w r later s).regs = s.regs := rfl
  simp only [same, hstep, commit_eq]
  simp [elsewhere, withEarlierOutput]

theorem readsNoOutput_refused (e : Refusal) : ReadsNoOutput (fun _ => .refused e) := by
  intro s t h; cases h

/-- A choice made by the registers and the parameters reads no output. -/
theorem readsNoOutput_ite {f g : State → Result} (p : Regs → Config → Bool)
    (hf : ReadsNoOutput f) (hg : ReadsNoOutput g) :
    ReadsNoOutput (fun s => if p s.regs s.cfg then f s else g s) := by
  intro s t h
  have regs_same b w r later : (elsewhere b w r later s).regs = s.regs := rfl
  have cfg_same b w r later : (elsewhere b w r later s).cfg = s.cfg := rfl
  cases hp : p s.regs s.cfg with
  | true => simpa [regs_same, cfg_same, hp] using hf s t (by simpa [hp] using h)
  | false => simpa [regs_same, cfg_same, hp] using hg s t (by simpa [hp] using h)

theorem readsNoOutput_runAll {fs : List (State → Result)} (hfs : ∀ f ∈ fs, ReadsNoOutput f) :
    ReadsNoOutput (runAll fs) := by
  induction fs with
  | nil => intro s t h; cases h; exact ⟨fun _ _ _ _ => rfl, rfl, rfl⟩
  | cons f fs ih =>
    intro s t h
    obtain ⟨m, hf, hrest⟩ := runAll_cons_eq_next.mp h
    obtain ⟨hfirst, hin, hcfg⟩ := hfs f (by simp) s m hf
    obtain ⟨hlast, hin', hcfg'⟩ := ih (fun g hg => hfs g (by simp [hg])) m t hrest
    refine ⟨fun b w r later => ?_, hin'.trans hin, hcfg'.trans hcfg⟩
    rw [runAll_cons_of_next (hfirst b w r later), hlast]

theorem readsNoOutput_execRxByte (d8 : Byte) : ReadsNoOutput (execRxByte d8) :=
  readsNoOutput_ite (fun r c => closesGroup d8 r && !wcntFits c (r.wcnt + 1))
    (readsNoOutput_refused _) (readsNoOutput_commit (rxByteStep d8))

theorem readsNoOutput_exec (i : Instr) : ReadsNoOutput (exec i) := by
  cases i with
  | crcInit => exact readsNoOutput_commit crcInitStep
  | crcByte d8 => exact readsNoOutput_commit (crcByteStep d8)
  | crcRead => exact readsNoOutput_commit crcReadStep
  | txOpc w16 => exact readsNoOutput_commit (txOpcStep w16)
  | txWord w16 => exact readsNoOutput_commit (txWordStep w16)
  | rxStart => exact readsNoOutput_commit rxStartStep
  | rxByte d8 => exact readsNoOutput_execRxByte d8
  | rxEnd => exact readsNoOutput_commit rxEndStep
  | crc8 a b =>
    refine readsNoOutput_runAll (fun f hf => ?_)
    simp only [List.mem_cons, List.not_mem_nil, or_false] at hf
    obtain rfl | rfl | rfl | rfl := hf
    · exact readsNoOutput_commit crcInitStep
    · exact readsNoOutput_commit (crcByteStep a)
    · exact readsNoOutput_commit (crcByteStep b)
    · exact readsNoOutput_commit crcReadStep
  | encc op =>
    refine readsNoOutput_runAll (fun f hf => ?_)
    rw [List.mem_singleton.mp hf]
    exact readsNoOutput_commit (txOpcStep op)
  | encw op words =>
    refine readsNoOutput_ite (fun _ c => nwFits c words.length)
      (readsNoOutput_runAll fun f hf => ?_) (readsNoOutput_refused _)
    simp only [List.mem_cons, List.mem_map] at hf
    obtain rfl | ⟨w, _, rfl⟩ := hf
    · exact readsNoOutput_commit (txOpcStep op)
    · exact readsNoOutput_commit (txWordStep w)
  | decw raw =>
    refine readsNoOutput_ite (fun _ c => rawFits c raw.length)
      (readsNoOutput_runAll fun f hf => ?_) (readsNoOutput_refused _)
    simp only [List.mem_cons, List.mem_append, List.mem_map, List.not_mem_nil, or_false] at hf
    obtain rfl | ⟨d8, _, rfl⟩ | rfl := hf
    · exact readsNoOutput_commit rxStartStep
    · exact readsNoOutput_execRxByte d8
    · exact readsNoOutput_commit rxEndStep
  | reserved opsel din => exact readsNoOutput_refused _

/-- Settles O52: every meaning is built from commits of register steps, runs, and choices by the
registers and the parameters, and each of these reads no output. -/
theorem outputsAreNeverReadBack : Obligations.OutputsAreNeverReadBack := by
  intro i s t b w r later h
  obtain ⟨same, hin, hcfg⟩ := readsNoOutput_exec i s t h
  exact ⟨same b w r later, hin, hcfg⟩

end Sys2Proof.Machine
end

section
/-! SUPPORT. The rules of spec/20_memory.md: bytes left over after the last complete group are not
decoded (R35), and the operations that are idempotent on the registers (R38). -/

namespace Sys2Proof.Machine

/-! ### Bytes after the last complete group (R35) -/

/-- The complete groups of a sequence that begins with one are that group and those of the rest. -/
theorem take_groupCount_cons (a b c : Byte) (rest : List Byte) :
    (a :: b :: c :: rest).take (3 * groupCount (a :: b :: c :: rest)) =
      a :: b :: c :: rest.take (3 * groupCount rest) := by
  rw [groupCount_cons, Nat.mul_add]; rfl

/-- DECW reads the complete groups only: with or without the bytes after them, the walk emits the
same valid group's word or stops at the same invalid group. -/
theorem decw_take_groupCount (raw : List Byte) : decw (raw.take (3 * groupCount raw)) = decw raw := by
  induction raw using groups_induction with
  | short raw hlen =>
    have taken : (raw.take (3 * groupCount raw)).length < 3 :=
      (List.length_take_le' _ _).trans_lt hlen
    rw [decw_of_short taken, decw_of_short hlen]
  | group a b c rest ih =>
    rw [take_groupCount_cons]
    cases h : check a b c with
    | true => rw [decw_of_check _ h, decw_of_check _ h, ih]
    | false => rw [decw_of_not_check _ h, decw_of_not_check _ h]

/-- Settles O35, by `decw_take_groupCount`. -/
theorem leftoverBytesAreIgnored : Obligations.LeftoverBytesAreIgnored :=
  fun raw => (decw_take_groupCount raw).symm

/-! ### Repeating an operation (R38) -/

/-- Committing twice a step that is idempotent on the registers completes twice, and the second time
leaves the registers as they are. -/
theorem commit_twice_regs {step : Regs → Regs × List Out}
    (idem : ∀ r, (step (step r).1).1 = (step r).1) (s : State) :
    ∃ t u : State, commit s (step s.regs) = .next t ∧ commit t (step t.regs) = .next u ∧
      u.regs = t.regs := by
  obtain ⟨t, ht⟩ : ∃ t, commit s (step s.regs) = .next t := ⟨_, commit_eq s _ _⟩
  obtain ⟨u, hu⟩ : ∃ u, commit t (step t.regs) = .next u := ⟨_, commit_eq t _ _⟩
  refine ⟨t, u, ht, hu, ?_⟩
  rw [regs_of_commit hu, regs_of_commit ht, idem]

/-- Settles O54: each of the six commits a step that writes only values which repeating it does not
change: constants, or what its operand gives. -/
theorem repeatingChangesNoRegister : Obligations.RepeatingChangesNoRegister := by
  intro i s hi
  obtain rfl | rfl | ⟨w, rfl⟩ | ⟨w, rfl⟩ | rfl | rfl := hi
  · exact commit_twice_regs (step := crcInitStep) (fun _ => rfl) s
  · exact commit_twice_regs (step := crcReadStep) (fun _ => rfl) s
  · exact commit_twice_regs (step := txOpcStep w) (fun _ => rfl) s
  · exact commit_twice_regs (step := txWordStep w) (fun _ => rfl) s
  · exact commit_twice_regs (step := rxStartStep) (fun _ => rfl) s
  · exact commit_twice_regs (step := rxEndStep) (fun _ => rfl) s

end Sys2Proof.Machine
end

section
/-! SUPPORT. The rules of spec/30_encoding.md: the decoder selector by selector (R54), the bits it
ignores (R55), the operation table (R54, R56), the refusal of the reserved selectors (R56), and how
many items an operation emits on each stream (R59). -/

namespace Sys2Proof.Machine

/-! ### The decoder, selector by selector (R54, R56) -/

/-- What a request word decodes to: one case per row of the operation table. -/
inductive Decodes (w : Request) : Instr → Prop
  | crcInit (ho : reqOpsel w = 0x0) : Decodes w .crcInit
  | crcByte (ho : reqOpsel w = 0x1) : Decodes w (.crcByte (reqByte w))
  | crcRead (ho : reqOpsel w = 0x2) : Decodes w .crcRead
  | txOpc (ho : reqOpsel w = 0x3) : Decodes w (.txOpc (reqWord w))
  | txWord (ho : reqOpsel w = 0x4) : Decodes w (.txWord (reqWord w))
  | rxStart (ho : reqOpsel w = 0x5) : Decodes w .rxStart
  | rxByte (ho : reqOpsel w = 0x6) : Decodes w (.rxByte (reqByte w))
  | rxEnd (ho : reqOpsel w = 0x7) : Decodes w .rxEnd
  | reserved (ho : 8 ≤ (reqOpsel w).toNat) : Decodes w (.reserved (reqOpsel w) (reqDin w))

theorem decode_reserved {w : Request} (ho : 8 ≤ (reqOpsel w).toNat) :
    decode w = .reserved (reqOpsel w) (reqDin w) := by
  obtain ⟨k, hk⟩ := Nat.exists_eq_add_of_le' ho
  rw [decode, hk]
  rfl

theorem decodes_decode (w : Request) : Decodes w (decode w) := by
  unfold decode
  split
  case h_1 ho => exact .crcInit (BitVec.eq_of_toNat_eq ho)
  case h_2 ho => exact .crcByte (BitVec.eq_of_toNat_eq ho)
  case h_3 ho => exact .crcRead (BitVec.eq_of_toNat_eq ho)
  case h_4 ho => exact .txOpc (BitVec.eq_of_toNat_eq ho)
  case h_5 ho => exact .txWord (BitVec.eq_of_toNat_eq ho)
  case h_6 ho => exact .rxStart (BitVec.eq_of_toNat_eq ho)
  case h_7 ho => exact .rxByte (BitVec.eq_of_toNat_eq ho)
  case h_8 ho => exact .rxEnd (BitVec.eq_of_toNat_eq ho)
  case h_9 h0 h1 h2 h3 h4 h5 h6 h7 =>
    exact .reserved (by
      simp only [imp_false] at h0 h1 h2 h3 h4 h5 h6 h7
      omega)

theorem decode_eq_iff {w : Request} {i : Instr} : decode w = i ↔ Decodes w i := by
  refine ⟨fun h => h ▸ decodes_decode w, fun h => ?_⟩
  cases h with
  | crcInit ho | crcByte ho | crcRead ho | txOpc ho | txWord ho | rxStart ho | rxByte ho
  | rxEnd ho => simp [decode, ho]
  | reserved ho => exact decode_reserved ho

/-! ### Ignored bits (R55) -/

/-- Two words that agree outside a mask agree on a field that the mask leaves out. -/
theorem field_eq_of_agree {w w' m : Request} (agree : (w ^^^ w') &&& ~~~ m = 0) {lo n : Nat}
    (outside : m.extractLsb' lo n = 0) : w'.extractLsb' lo n = w.extractLsb' lo n := by
  ext i hi
  rw [BitVec.getElem_extractLsb', BitVec.getElem_extractLsb']
  by_cases hlt : lo + i < 20
  · have unmasked : m.getLsbD (lo + i) = false := by
      simpa [hi] using congrArg (BitVec.getLsbD · i) outside
    have same := congrArg (BitVec.getLsbD · (lo + i)) agree
    simp only [BitVec.getLsbD_and, BitVec.getLsbD_xor, BitVec.getLsbD_not, hlt, unmasked,
      decide_true, Bool.not_false, Bool.and_true, BitVec.ofNat_eq_ofNat, BitVec.getLsbD_zero,
      bne_eq_false_iff_eq] at same
    exact same.symm
  · rw [BitVec.getLsbD_of_ge _ _ (not_lt.mp hlt), BitVec.getLsbD_of_ge _ _ (not_lt.mp hlt)]

/-- The decoder's selector is never ignored. -/
theorem ignoredMask_opsel (o : BitVec 4) : (ignoredMask o).extractLsb' 16 4 = 0 := by
  revert o; decide

theorem Decodes.of_agree {w w' : Request} {i : Instr} (h : Decodes w i)
    (agree : (w ^^^ w') &&& ~~~ ignoredMask (reqOpsel w) = 0) : Decodes w' i := by
  have sel : reqOpsel w' = reqOpsel w := field_eq_of_agree agree (ignoredMask_opsel _)
  have byte (hm : (ignoredMask (reqOpsel w)).extractLsb' 0 8 = 0) : reqByte w' = reqByte w :=
    field_eq_of_agree agree hm
  have word (hm : (ignoredMask (reqOpsel w)).extractLsb' 0 16 = 0) : reqDin w' = reqDin w :=
    field_eq_of_agree agree hm
  cases h with
  | crcInit ho => exact .crcInit (sel.trans ho)
  | crcByte ho => rw [← byte (by rw [ho]; rfl)]; exact .crcByte (sel.trans ho)
  | crcRead ho => exact .crcRead (sel.trans ho)
  | txOpc ho => rw [reqWord, ← word (by rw [ho]; rfl)]; exact .txOpc (sel.trans ho)
  | txWord ho => rw [reqWord, ← word (by rw [ho]; rfl)]; exact .txWord (sel.trans ho)
  | rxStart ho => exact .rxStart (sel.trans ho)
  | rxByte ho => rw [← byte (by rw [ho]; rfl)]; exact .rxByte (sel.trans ho)
  | rxEnd ho => exact .rxEnd (sel.trans ho)
  | reserved ho =>
    have none_ignored := Laws.RequestWords.ignoredMask_reserved _ (decide_eq_true ho)
    rw [← word (by rw [none_ignored]; rfl), ← sel]
    exact .reserved (sel ▸ ho)

/-- Settles O39: the two words agree on the selector and on the operand that the selector's format
reads. -/
theorem ignoredBitsDoNotMatter : Obligations.IgnoredBitsDoNotMatter :=
  fun w _ agree => (decode_eq_iff.mpr ((decodes_decode w).of_agree agree)).symm

/-! ### The operation table (R54, R56) -/

/-- A request word's selector with DIN zero. -/
def selectorWord (w : Request) : Request := mkRequest (reqOpsel w) 0

theorem selectorWord_eq (w : Request) : selectorWord w = w &&& 0xF0000 := by
  have mask : ∀ i (hi : i < 20), (0xF0000#20)[i] = decide (16 ≤ i) := by decide
  ext i hi
  by_cases h : i < 16
  · simp [selectorWord, mkRequest, mask, h]
  · have : 16 + (i - 16) = i := by omega
    have : i - 16 < 4 := by omega
    simp [selectorWord, mkRequest, reqOpsel, not_lt.mp h, *]

/-- A row of the operation table tests the selector only. -/
theorem rowMatches_selectorWord (w : Request) {row : OpcodeRow} (h : row ∈ opcodeRows) :
    rowMatches (selectorWord w) row = rowMatches w row := by
  have mask : 0xF0000 &&& row.mask = row.mask := by revert row; decide
  rw [rowMatches, selectorWord_eq, BitVec.and_assoc, mask, rowMatches]

/-- The selector alone says which operation a word is; DIN says with which operand. -/
theorem mnemonicOf_decode_selectorWord (w : Request) :
    mnemonicOf (decode (selectorWord w)) = mnemonicOf (decode w) := by
  have sel : reqOpsel (selectorWord w) = reqOpsel w := Laws.RequestWords.opsel_mkRequest _ _
  simp only [decode, sel]
  generalize (reqOpsel w).toNat = n
  split <;> rfl

theorem opcodeRows_filter_selector (o : BitVec 4) :
    (opcodeRows.filter (rowMatches (mkRequest o 0))).map OpcodeRow.mnemonic =
      [mnemonicOf (decode (mkRequest o 0))] := by
  revert o; decide

/-- Settles O40: the rows and the mnemonic are those of the word's selector, one of sixteen; the
reserved operations are the last case of `Decodes`. -/
theorem everyWordHasOneTableRow : Obligations.EveryWordHasOneTableRow := by
  refine ⟨fun w => ?_, fun w => decode_reserved, fun w hlt o d hd => ?_⟩
  · calc (opcodeRows.filter (rowMatches w)).map OpcodeRow.mnemonic
      _ = (opcodeRows.filter (rowMatches (selectorWord w))).map OpcodeRow.mnemonic :=
        congrArg _ (List.filter_congr fun _ h => (rowMatches_selectorWord w h).symm)
      _ = [mnemonicOf (decode (selectorWord w))] := opcodeRows_filter_selector _
      _ = [mnemonicOf (decode w)] := by rw [mnemonicOf_decode_selectorWord]
  · cases decode_eq_iff.mp hd with
    | reserved ho => omega

/-! ### The refusal of the reserved selectors (R56) -/

theorem step_request {s : State} {w : Request} {rest : List HostInput}
    (h : s.inputs = .request w :: rest) : step s = exec (decode w) { s with inputs := rest } := by
  simp [step, h]

theorem commit_ne_refused (s : State) (p : Regs × List Out) (e : Refusal) :
    commit s p ≠ .refused e := by
  simp [commit]

/-- RX.BYTE is refused, if at all, as an overflow of WCNT. -/
theorem execRxByte_ne_reservedSelector (d8 : Byte) (s : State) :
    execRxByte d8 s ≠ .refused .reservedSelector := by
  unfold execRxByte
  split
  · simp
  · exact commit_ne_refused _ _ _

theorem exec_decode_reserved {w : Request} (h : 8 ≤ (reqOpsel w).toNat) (s : State) :
    exec (decode w) s = .refused .reservedSelector := by
  rw [decode_reserved h]; rfl

theorem exec_decode_ne_reservedSelector {w : Request} (h : (reqOpsel w).toNat < 8) (s : State) :
    exec (decode w) s ≠ .refused .reservedSelector := by
  have hw := decodes_decode w
  generalize decode w = i at hw
  cases hw with
  | crcInit | crcByte | crcRead | txOpc | txWord | rxStart | rxEnd =>
    exact commit_ne_refused _ _ _
  | rxByte => exact execRxByte_ne_reservedSelector _ s
  | reserved ho => omega

/-- Settles O22: a step that meets a request word performs what it decodes to, by
`exec_decode_reserved` and `exec_decode_ne_reservedSelector`. -/
theorem reservedSelectorIsRefused : Obligations.ReservedSelectorIsRefused := by
  refine ⟨fun w h => ⟨exec_decode_reserved h, fun s rest hin => ?_⟩,
    fun w h => ⟨exec_decode_ne_reservedSelector h, fun s rest hin => ?_⟩⟩
  · rw [step_request hin]; exact exec_decode_reserved h _
  · rw [step_request hin]; exact exec_decode_ne_reservedSelector h _

/-! ### What an operation emits (R59, R94, R105) -/

/-- From `s` to `t` the bytes `b`, the words `w` and the records `r` were emitted. -/
structure Emits (s t : State) (b : List Byte) (w : List Word) (r : List StatRec) : Prop where
  bout : t.bout = s.bout ++ b
  wout : t.wout = s.wout ++ w
  stat : t.stat = s.stat ++ r

theorem emits_nothing {s t : State} (hb : t.bout = s.bout) (hw : t.wout = s.wout)
    (hr : t.stat = s.stat) : Emits s t [] [] [] :=
  ⟨by simp [hb], by simp [hw], by simp [hr]⟩

theorem emits_word {s t : State} {v : Word} (hb : t.bout = s.bout) (hw : t.wout = s.wout ++ [v])
    (hr : t.stat = s.stat) : Emits s t [] [v] [] :=
  ⟨by simp [hb], hw, by simp [hr]⟩

theorem Emits.trans {s m t : State} {b b' : List Byte} {w w' : List Word} {r r' : List StatRec}
    (h : Emits s m b w r) (h' : Emits m t b' w' r') :
    Emits s t (b ++ b') (w ++ w') (r ++ r') :=
  ⟨by simp [h.bout, h'.bout], by simp [h.wout, h'.wout], by simp [h.stat, h'.stat]⟩

theorem emits_of_commit {s t : State} {p : Regs × List Out} (h : commit s p = .next t) :
    Emits s t (bytesOf p.2) (wordsOf p.2) (recordsOf p.2) := by
  obtain ⟨r, os⟩ := p
  rw [commit_eq] at h
  cases h; exact ⟨rfl, rfl, rfl⟩

/-- The checksum alone is emitted: the micro-operations before CRC.READ emit nothing. -/
theorem execCrc8_emits {a b : Byte} {s t : State} (h : execCrc8 a b s = .next t) :
    ∃ v, Emits s t [v] [] [] := by
  simp only [execCrc8, runAll_cons_eq_next] at h
  obtain ⟨m₁, hinit, m₂, ha, m₃, hb, m₄, hread, ⟨⟩⟩ := h
  exact ⟨_, (((emits_of_commit hinit).trans (emits_of_commit ha)).trans
    (emits_of_commit hb)).trans (emits_of_commit hread)⟩

theorem execTxOpc_emits {op : Word} {s t : State} (h : execTxOpc op s = .next t) :
    Emits s t (encc op) [] [] :=
  emits_of_commit h

theorem execEncc_emits {op : Word} {s t : State} (h : execEncc op s = .next t) :
    Emits s t (encc op) [] [] := by
  obtain ⟨m, hop, ⟨⟩⟩ := runAll_cons_eq_next.mp h
  exact execTxOpc_emits hop

theorem execTxWord_emits {w : Word} {s t : State} (h : execTxWord w s = .next t) :
    Emits s t (group w) [] [] :=
  emits_of_commit h

theorem runAll_execTxWord_emits {words : List Word} {s t : State}
    (h : runAll (words.map execTxWord) s = .next t) :
    Emits s t (words.flatMap group) [] [] := by
  induction words generalizing s with
  | nil => cases h; exact emits_nothing rfl rfl rfl
  | cons w words ih =>
    obtain ⟨m, hw, hrest⟩ := runAll_cons_eq_next.mp h
    exact (execTxWord_emits hw).trans (ih hrest)

theorem execEncw_emits {op : Word} {words : List Word} {s t : State}
    (h : execEncw op words s = .next t) : Emits s t (encw op words) [] [] := by
  obtain ⟨m, hop, hwords⟩ := runAll_cons_eq_next.mp (execEncw_eq_next.mp h).2
  exact (execTxOpc_emits hop).trans (runAll_execTxWord_emits hwords)

theorem encw_length (op : Word) (words : List Word) :
    (encw op words).length = 2 + 3 * words.length := by
  simp [encw, List.length_flatMap, Nat.mul_comm]

theorem closesGroup_iff {d8 : Byte} {r : Regs} :
    closesGroup d8 r = true ↔ r.stop = false ∧ r.ph = .check ∧ d8 = r.crc := by
  simp [closesGroup, and_assoc]

/-- The words that one RX.BYTE emits (R103). -/
def rxByteWords (d8 : Byte) (r : Regs) : List Word :=
  if closesGroup d8 r then [joinBytes r.msb r.lsb] else []

theorem execRxByte_emits {d8 : Byte} {s t : State} (h : execRxByte d8 s = .next t) :
    Emits s t [] (rxByteWords d8 s.regs) [] := by
  cases rxByteEffect_of_next h with
  | stopped | msb | lsb | mismatch =>
    rw [rxByteWords, if_neg (by simp [closesGroup, *])]
    exact emits_nothing rfl rfl rfl
  | accept hs hp hd =>
    rw [rxByteWords, if_pos (closesGroup_iff.mpr ⟨hs, hp, hd⟩)]
    exact emits_word rfl rfl rfl

theorem runAll_execRxByte_stopped {s : State} (hs : s.regs.stop = true) (raw : List Byte) :
    runAll (raw.map execRxByte) s = .next s := by
  induction raw with
  | nil => rfl
  | cons d8 raw ih => rw [List.map_cons, runAll_cons_of_next (execRxByte_stopped hs), ih]

/-- A receiver that is not stopped and at the start of a group emits, while it receives `raw`, the
words of DECW's pure function. -/
theorem runAll_execRxByte_emits {raw : List Byte} {s t : State} (hs : s.regs.stop = false)
    (hp : s.regs.ph = .msb) (hrun : runAll (raw.map execRxByte) s = .next t) :
    Emits s t [] (decw raw) [] := by
  induction raw using groups_induction generalizing s with
  | short raw hlen =>
    rw [decw_of_short hlen]
    match raw, hlen with
    | [], _ => cases hrun; exact emits_nothing rfl rfl rfl
    | [a], _ =>
      rw [List.map_singleton, runAll_cons_of_next (execRxByte_msb hs hp)] at hrun
      cases hrun; exact emits_nothing rfl rfl rfl
    | [a, b], _ =>
      rw [List.map_cons, List.map_singleton, runAll_firstTwoBytes hs hp] at hrun
      cases hrun; exact emits_nothing rfl rfl rfl
    | _ :: _ :: _ :: _, hlen => simp at hlen; omega
  | group a b c rest ih =>
    simp only [List.map_cons, runAll_firstTwoBytes hs hp] at hrun
    obtain ⟨m, hthird, hrest⟩ := runAll_cons_eq_next.mp hrun
    cases rxByteEffect_of_next hthird with
    | stopped hs' => simp [hs] at hs'
    | msb _ hph | lsb _ hph => cases hph
    | mismatch _ _ hne =>
      rw [decw_of_not_check rest (by simpa [check] using Ne.symm hne)]
      rw [runAll_execRxByte_stopped rfl] at hrest
      cases hrest; exact emits_nothing rfl rfl rfl
    | accept _ _ heq =>
      rw [decw_of_check rest (by simpa [check] using heq.symm)]
      have later := ih (by exact hs) (by rfl) hrest
      refine Emits.trans (b := []) (w := [joinBytes a b]) (r := []) ?_ later
      exact emits_word rfl rfl rfl

theorem execDecw_emits {raw : List Byte} {s t : State} (h : execDecw raw s = .next t) :
    ∃ rec, Emits s t [] (decw raw) [rec] := by
  obtain ⟨_, u, v, hstart, hbytes, hend⟩ := execDecw_eq_next.mp h
  have hu := regs_of_commit hstart
  have words := runAll_execRxByte_emits (by rw [hu]; rfl) (by rw [hu]; rfl) hbytes
  have all := ((emits_of_commit hstart).trans words).trans (emits_of_commit hend)
  exact ⟨_, by simpa [rxStartStep, rxEndStep, bytesOf, wordsOf, recordsOf] using all⟩

theorem decw_length_le (raw : List Byte) : (decw raw).length ≤ groupCount raw := by
  induction raw using groups_induction with
  | short raw hlen => simp [decw_of_short hlen]
  | group a b c rest ih =>
    rw [groupCount_cons]
    cases h : check a b c with
    | true => simpa [decw_of_check rest h] using ih
    | false => simp [decw_of_not_check rest h]

/-- The words an operation emits when it completes (R103, R105). -/
def wordsEmitted (i : Instr) (s : State) : List Word :=
  match i with
  | .rxByte d8 => rxByteWords d8 s.regs
  | .decw raw => decw raw
  | _ => []

/-- What an operation that completes has emitted: the words of `wordsEmitted`, and as many bytes and
records as its operands fix. -/
theorem exec_emits {i : Instr} {s t : State} (h : exec i s = .next t) :
    ∃ b r, Emits s t b (wordsEmitted i s) r ∧ b.length = boutItems i ∧ r.length = statItems i := by
  cases i with
  | crcInit | crcByte | crcRead | txOpc | txWord | rxStart | rxEnd =>
    exact ⟨_, _, emits_of_commit h, rfl, rfl⟩
  | rxByte d8 => exact ⟨_, _, execRxByte_emits h, rfl, rfl⟩
  | crc8 a b =>
    obtain ⟨v, hv⟩ := execCrc8_emits h
    exact ⟨_, _, hv, rfl, rfl⟩
  | encc op => exact ⟨_, _, execEncc_emits h, rfl, rfl⟩
  | encw op words => exact ⟨_, _, execEncw_emits h, encw_length op words, rfl⟩
  | decw raw =>
    obtain ⟨rec, hrec⟩ := execDecw_emits h
    exact ⟨_, _, hrec, rfl, rfl⟩
  | reserved opsel din => cases h

/-- Settles O53, by `exec_emits`: the words are those of RX.BYTE (`closesGroup_iff`), those of DECW
(`decw_length_le`), or none. -/
theorem outputItemCounts : Obligations.OutputItemCounts := by
  intro i s t h
  obtain ⟨b, r, emitted, hb, hr⟩ := exec_emits h
  refine ⟨b, wordsEmitted i s, r, emitted.bout, emitted.wout, emitted.stat, hb, hr, ?_, ?_, ?_⟩
  · rintro d8 rfl
    simp only [wordsEmitted, rxByteWords, closesGroup_iff]
    split <;> rfl
  · rintro raw rfl
    exact ⟨rfl, decw_length_le raw⟩
  · intro notByte notDecw
    cases i with
    | rxByte d8 => exact absurd rfl (notByte d8)
    | decw raw => exact absurd rfl (notDecw raw)
    | _ => rfl

end Sys2Proof.Machine
end

section
/-! SUPPORT. The CRC family of spec/40_crc8.md section 3: the request words and the whole effect of
CRC.INIT (R73), CRC.BYTE (R74) and CRC.READ (R75), and runs of CRC.BYTE (R74, U4). -/

namespace Sys2Proof.Machine

/-! ### The whole effect of each micro-operation -/

/-- A micro-operation that emits nothing writes the registers and changes nothing else. -/
theorem commit_registers (s : State) (r : Regs) : commit s (r, []) = .next { s with regs := r } := by
  simp [commit_eq, bytesOf, wordsOf, recordsOf]

theorem execCrcInit_eq (s : State) :
    execCrcInit s = .next { s with regs := { s.regs with crc := 0xFF } } :=
  commit_registers s _

theorem execCrcByte_eq (d8 : Byte) (s : State) :
    execCrcByte d8 s = .next { s with regs := { s.regs with crc := absorb s.regs.crc d8 } } :=
  commit_registers s _

theorem execCrcRead_eq (s : State) :
    execCrcRead s = .next { s with bout := s.bout ++ [s.regs.crc] } := by
  simp [execCrcRead, crcReadStep, commit_eq, bytesOf, wordsOf, recordsOf]

/-- Settles O15, by induction on the message: the first CRC.BYTE changes CRC alone, so the rest runs
from a state that differs from the first one there only. -/
theorem crcBytesFoldInOrder : Obligations.CrcBytesFoldInOrder := by
  intro message
  induction message with
  | nil => exact fun s => rfl
  | cons d8 message ih => exact fun s => execAll_cons_eq_next.mpr ⟨_, execCrcByte_eq d8 s, ih _⟩

/-! ### Request words (R53, R55) -/

/-- A request word with a byte operand: the selector in bits 19..16, the byte in bits 7..0, zero
between. -/
theorem mkRequest_dinOfByte (o : BitVec 4) (d8 : Byte) :
    mkRequest o (dinOfByte d8) = (o.setWidth 20 <<< 16) ||| d8.setWidth 20 := by
  rw [mkRequest, dinOfByte, BitVec.setWidth_setWidth (by omega)]

/-- Settles O12, by `Decodes.crcInit` and `execCrcInit_eq`. -/
theorem crcInitSetsAccumulator : Obligations.CrcInitSetsAccumulator :=
  ⟨fun _ ho => decode_eq_iff.mpr (.crcInit ho), rfl, execCrcInit_eq⟩

/-- Settles O13, by `Decodes.crcByte`, `mkRequest_dinOfByte` and `execCrcByte_eq`; absorbing the
accumulator's own value leaves zero (`absorb_self`). -/
theorem crcByteAbsorbsOperand : Obligations.CrcByteAbsorbsOperand := by
  refine ⟨fun w ho => decode_eq_iff.mpr (.crcByte ho),
    fun d8 => congrArg (fun w => [w]) (mkRequest_dinOfByte 0x1 d8),
    fun s d8 => execCrcByte_eq d8 s, fun s d8 hcrc => ?_⟩
  calc exec (.crcByte d8) s
    _ = .next { s with regs := { s.regs with crc := absorb s.regs.crc d8 } } := execCrcByte_eq d8 s
    _ = .next { s with regs := { s.regs with crc := 0x00 } } := by rw [hcrc, absorb_self]

/-- Settles O14, by `Decodes.crcRead` and `execCrcRead_eq`. -/
theorem crcReadEmitsAccumulator : Obligations.CrcReadEmitsAccumulator :=
  ⟨fun _ ho => decode_eq_iff.mpr (.crcRead ho), rfl, execCrcRead_eq⟩

end Sys2Proof.Machine
end

section
/-! SUPPORT. The encoder family of spec/41_encode.md: the request words and the whole effect of TX.OPC
(R92) and TX.WORD (R93), and of the macro-operation ENCC (R90). -/

namespace Sys2Proof.Machine

/-! ### The whole effect of each operation -/

theorem emitAll_bytes (s : State) (bytes : List Byte) :
    emitAll s (bytes.map .B) = { s with bout := s.bout ++ bytes } := by
  induction bytes generalizing s with
  | nil => simp [emitAll]
  | cons b bytes ih =>
    calc emitAll s ((b :: bytes).map .B)
      _ = emitAll (emit s (.B b)) (bytes.map .B) := rfl
      _ = { s with bout := s.bout ++ b :: bytes } := by simp [ih, emit]

/-- A micro-operation that emits bytes only writes the registers, appends the bytes to BOUT, and
changes nothing else. -/
theorem commit_bytes (s : State) (r : Regs) (bytes : List Byte) :
    commit s (r, bytes.map .B) = .next { s with regs := r, bout := s.bout ++ bytes } :=
  congrArg Host.Outcome.next (emitAll_bytes { s with regs := r } bytes)

theorem execTxOpc_eq (op : Word) (s : State) :
    execTxOpc op s = .next { s with bout := s.bout ++ encc op } :=
  commit_bytes s s.regs (encc op)

theorem execTxWord_eq (w : Word) (s : State) :
    execTxWord w s = .next { s with
      regs := { s.regs with crc := crc8 (hiByte w) (loByte w) }, bout := s.bout ++ group w } :=
  commit_bytes s _ (group w)

theorem execEncc_eq (op : Word) (s : State) :
    execEncc op s = .next { s with bout := s.bout ++ encc op } :=
  runAll_cons_eq_next.mpr ⟨_, execTxOpc_eq op s, rfl⟩

/-! ### The statements of R92, R93 and R90 -/

/-- Settles O16, by `Decodes.txOpc` and `execTxOpc_eq`; the request word is `mkRequest` of the
selector and the operand, which fills DIN. -/
theorem txOpcEmitsOpcodeBigEndian : Obligations.TxOpcEmitsOpcodeBigEndian :=
  ⟨fun _ ho => decode_eq_iff.mpr (.txOpc ho), fun _ => rfl, fun s op => execTxOpc_eq op s⟩

/-- Settles O17, by `Decodes.txWord` and `execTxWord_eq`: the third byte of `group` is the checksum
that CRC is left with. -/
theorem txWordEmitsGroup : Obligations.TxWordEmitsGroup :=
  ⟨fun _ ho => decode_eq_iff.mpr (.txWord ho), fun _ => rfl, fun s w => execTxWord_eq w s⟩

/-- Settles O24, by `execEncc_eq`: ENCC is its one micro-operation, TX.OPC. -/
theorem enccEmitsTwoBytes : Obligations.EnccEmitsTwoBytes :=
  ⟨fun _ => rfl, execEncc_eq⟩

end Sys2Proof.Machine
end

section
/-! SUPPORT. The decoder family of spec/42_decode.md: DECW as the longest run of valid groups (R100)
and its empty result (R101), and the request words and the whole effect of RX.START (R102), RX.BYTE
(R103) and RX.END (R104). -/

namespace Sys2Proof.Machine

/-! ### DECW is the longest run of valid groups (R100, R101) -/

section Groups

variable {a b c : Byte} (rest : List Byte)

theorem groupWord_zero : groupWord (a :: b :: c :: rest) 0 = some (joinBytes a b) := by
  simp [groupWord, memRead]

theorem groupWord_succ (g : Nat) :
    groupWord (a :: b :: c :: rest) (g + 1) = groupWord rest g := by
  simp [groupWord, memRead, Nat.mul_add]

theorem decwIndexed_of_not_check (h : check a b c = false) :
    decwIndexed (a :: b :: c :: rest) = [] := by
  simp [decwIndexed, firstInvalid_of_not_check rest h]

theorem decwIndexed_of_check (h : check a b c = true) :
    decwIndexed (a :: b :: c :: rest) = joinBytes a b :: decwIndexed rest := by
  simp [decwIndexed, firstInvalid_of_check rest h, List.range_succ_eq_map, List.filterMap_map,
    groupWord_zero, groupWord_succ]

end Groups

theorem groupCount_of_short {raw : List Byte} (h : raw.length < 3) : groupCount raw = 0 :=
  Nat.div_eq_of_lt h

theorem firstInvalid_le_groupCount (raw : List Byte) : firstInvalid raw ≤ groupCount raw := by
  calc firstInvalid raw
    _ ≤ (List.range (groupCount raw)).length := (List.takeWhile_sublist _).length_le
    _ = groupCount raw := List.length_range

theorem firstInvalid_of_short {raw : List Byte} (h : raw.length < 3) : firstInvalid raw = 0 :=
  Nat.le_zero.mp (groupCount_of_short h ▸ firstInvalid_le_groupCount raw)

/-- The walk of the source's §4.2 is the indexed pseudocode of R100. -/
theorem decw_eq_decwIndexed (raw : List Byte) : decw raw = decwIndexed raw := by
  induction raw using groups_induction with
  | short raw hlen => rw [decw_of_short hlen, decwIndexed, firstInvalid_of_short hlen]; rfl
  | group a b c rest ih =>
    cases h : check a b c with
    | true => rw [decw_of_check rest h, decwIndexed_of_check rest h, ih]
    | false => rw [decw_of_not_check rest h, decwIndexed_of_not_check rest h]

theorem decw_length (raw : List Byte) : (decw raw).length = firstInvalid raw := by
  induction raw using groups_induction with
  | short raw hlen => rw [decw_of_short hlen, firstInvalid_of_short hlen]; rfl
  | group a b c rest ih =>
    cases h : check a b c with
    | true => rw [decw_of_check rest h, firstInvalid_of_check rest h, List.length_cons, ih]
    | false => rw [decw_of_not_check rest h, firstInvalid_of_not_check rest h]; rfl

theorem groupValid_of_lt_firstInvalid {raw : List Byte} {g : Nat} (hg : g < firstInvalid raw) :
    groupValid raw g = true := by
  induction raw using groups_induction generalizing g with
  | short raw hlen => simp [firstInvalid_of_short hlen] at hg
  | group a b c rest ih =>
    cases h : check a b c with
    | false => simp [firstInvalid_of_not_check rest h] at hg
    | true =>
      cases g with
      | zero => rw [groupValid_zero, h]
      | succ g =>
        rw [firstInvalid_of_check rest h] at hg
        rw [groupValid_succ, ih (Nat.lt_of_succ_lt_succ hg)]

theorem groupValid_firstInvalid {raw : List Byte} (hlt : firstInvalid raw < groupCount raw) :
    groupValid raw (firstInvalid raw) = false := by
  induction raw using groups_induction with
  | short raw hlen => simp [groupCount_of_short hlen] at hlt
  | group a b c rest ih =>
    cases h : check a b c with
    | false => rw [firstInvalid_of_not_check rest h, groupValid_zero, h]
    | true =>
      rw [firstInvalid_of_check rest h, groupCount_cons] at hlt
      rw [firstInvalid_of_check rest h, groupValid_succ, ih (Nat.lt_of_succ_lt_succ hlt)]

/-- Settles O30: the walk is the pseudocode (`decw_eq_decwIndexed`) and as long as the index of the
first invalid group, before which every group is valid (`groupValid_of_lt_firstInvalid`). -/
theorem decwIsLongestValidRun : Obligations.DecwIsLongestValidRun :=
  fun raw => ⟨decw_eq_decwIndexed raw, decw_length raw, firstInvalid_le_groupCount raw,
    fun _ => groupValid_of_lt_firstInvalid, groupValid_firstInvalid⟩

/-- Settles O31: fewer than three bytes are no group, and where there is a first group the walk's
result is empty exactly if that group fails its check. -/
theorem emptyResultInTwoCases : Obligations.EmptyResultInTwoCases := by
  intro raw
  induction raw using groups_induction with
  | short raw hlen => simp [decw_of_short hlen, hlen]
  | group a b c rest =>
    cases h : check a b c with
    | true => simp [decw_of_check rest h, groupValid_zero, h]
    | false => simp [decw_of_not_check rest h, groupValid_zero, h]

/-! ### The whole effect of each micro-operation (R102 to R104) -/

theorem execRxStart_eq (s : State) :
    execRxStart s = .next { s with regs := { s.regs with ph := .msb, stop := false, wcnt := 0 } } :=
  commit_registers s _

theorem execRxEnd_eq (s : State) :
    execRxEnd s = .next { s with
      regs := { s.regs with ph := .msb },
      stat := s.stat ++ [{ count := s.regs.wcnt, empty := emptyFlag s.regs.wcnt }] } := by
  simp [execRxEnd, rxEndStep, commit_eq, bytesOf, wordsOf, recordsOf]

/-- Of the operations that are not macro-operations, one other than RX.START leaves a set STOP set
and WCNT no smaller. -/
theorem stop_wcnt_kept_of_ne_rxStart {i : Instr} {s t : State} (hmicro : isMacro i = false)
    (hne : i ≠ .rxStart) (h : exec i s = .next t) :
    (s.regs.stop = true → t.regs.stop = true) ∧ s.regs.wcnt ≤ t.regs.wcnt := by
  cases decoderEffect_of_next h with
  | keeps hk => rw [hk]; simp
  | start => exact absurd rfl hne
  | finish hr => rw [hr]; simp
  | decw => cases hmicro
  | byte hb => cases hb <;> simp

/-- Settles O18, by `Decodes.rxStart`, `execRxStart_eq` and `stop_wcnt_kept_of_ne_rxStart`. -/
theorem rxStartOpensResponse : Obligations.RxStartOpensResponse := by
  refine ⟨fun _ ho => decode_eq_iff.mpr (.rxStart ho), rfl, execRxStart_eq,
    fun i s t hmicro h hclears => ?_⟩
  by_contra hne
  obtain ⟨hstop, hwcnt⟩ := stop_wcnt_kept_of_ne_rxStart hmicro hne h
  obtain ⟨hset, hclear⟩ | hless := hclears
  · simp [hstop hset] at hclear
  · exact absurd hless (not_lt.mpr hwcnt)

/-- Settles O19, by `Decodes.rxByte`, `mkRequest_dinOfByte` and, for the effect, the equation of each
phase of RX.BYTE. -/
theorem rxByteReceivesGroupBytes : Obligations.RxByteReceivesGroupBytes := by
  refine ⟨fun w ho => decode_eq_iff.mpr (.rxByte ho),
    fun d8 => congrArg (fun w => [w]) (mkRequest_dinOfByte 0x6 d8), fun s d8 hfit => ?_⟩
  change execRxByte d8 s = _
  cases hs : s.regs.stop with
  | true => simp [execRxByte_stopped hs]
  | false =>
    cases hp : s.regs.ph with
    | msb => simp [execRxByte_msb hs hp, crcInitValue]
    | lsb => simp [execRxByte_lsb hs hp]
    | check =>
      by_cases hd : d8 = s.regs.crc
      · rw [execRxByte_match hs hp hd hfit]; simp [hd]
      · simp [execRxByte_mismatch hs hp hd, mismatch, hd]

/-- Settles O21, by `Decodes.rxEnd` and `execRxEnd_eq`. -/
theorem rxEndReportsCountAndEmpty : Obligations.RxEndReportsCountAndEmpty :=
  ⟨fun _ ho => decode_eq_iff.mpr (.rxEnd ho), rfl, execRxEnd_eq⟩

end Sys2Proof.Machine
end

section
/-! SUPPORT. The functions of spec/40_crc8.md: the round and the byte step in the spec's other forms
(R77, R78, R82), bijectivity (R81 parts a to c), the table (R79) and the group test (R80). -/

namespace Sys2Proof.Machine

/-! ### The round and the byte step in other forms (R77, R78) -/

theorem getLsbD_round (x : Byte) (i : Nat) : (round x).getLsbD i =
    ((decide (i < 8) && !decide (i < 1) && x.getLsbD (i - 1)) ^^
      (x.getLsbD 7 && crcPoly.getLsbD i)) := by
  cases hx : x.getLsbD 7 with
  | true => rw [round_of_top hx, BitVec.getLsbD_xor, BitVec.getLsbD_shiftLeft, Bool.true_and]
  | false =>
    rw [round_of_not_top hx, BitVec.getLsbD_shiftLeft, Bool.false_and, Bool.xor_false]

theorem round_eq_roundWires (x : Byte) : round x = roundWires x := by
  revert x; decide +kernel

/-- Settles O1: bit by bit by `getLsbD_round`, the polynomial having its bits at 0, 4 and 5. -/
theorem roundIsShiftRegisterWithFeedback : Obligations.RoundIsShiftRegisterWithFeedback := by
  intro x
  simp [getLsbD_round, ← round_eq_roundWires, -BitVec.getLsbD_eq_getElem, crcPoly]

/-- `absorb` sees its operands through their XOR, so each of its forms is settled on 256 values. -/
theorem absorb_zero_eq_absorbTrees (x : Byte) : absorb 0 x = absorbTrees x := by
  revert x; decide +kernel

/-- Settles O2, by `absorb_eq_absorb_zero` and `absorb_zero_eq_absorbTrees`. -/
theorem absorbIsEightXorTrees : Obligations.AbsorbIsEightXorTrees := fun c d => by
  rw [absorb_eq_absorb_zero, absorb_zero_eq_absorbTrees]

/-! ### The bit-serial form (R82) -/

/-- XORed into the register, a value goes through the rounds on its own. -/
theorem shiftInBit_xor (c c' : Byte) (bit : Bool) :
    shiftInBit crcPoly (c ^^^ c') bit = round c ^^^ shiftInBit crcPoly c' bit := by
  have feedback (x : Byte) : shiftInBit crcPoly x bit = round x ^^^ if bit then crcPoly else 0 := by
    cases bit <;> cases hx : x.getLsbD 7 <;>
      simp [-BitVec.getLsbD_eq_getElem, shiftInBit, round, hx]
  rw [feedback, feedback, round_xor, BitVec.xor_assoc]

theorem foldl_shiftInBit_xor (bits : List Bool) (c c' : Byte) :
    bits.foldl (shiftInBit crcPoly) (c ^^^ c') =
      round^[bits.length] c ^^^ bits.foldl (shiftInBit crcPoly) c' := by
  induction bits generalizing c c' with
  | nil => rfl
  | cons bit bits ih =>
    rw [List.foldl_cons, shiftInBit_xor, ih, List.length_cons, Function.iterate_succ_apply,
      List.foldl_cons]

theorem foldl_shiftInBit_zero (d : Byte) :
    (bitsMsbFirst d).foldl (shiftInBit crcPoly) 0 = absorb 0 d := by
  revert d; decide +kernel

/-- Eight message bits, most significant first, are one byte step. -/
theorem foldl_shiftInBit_bitsMsbFirst (c d : Byte) :
    (bitsMsbFirst d).foldl (shiftInBit crcPoly) c = absorb c d := by
  calc (bitsMsbFirst d).foldl (shiftInBit crcPoly) c
    _ = (bitsMsbFirst d).foldl (shiftInBit crcPoly) (c ^^^ 0) := by simp
    _ = absorb c 0 ^^^ absorb 0 d := by
      rw [foldl_shiftInBit_xor, foldl_shiftInBit_zero]
      simp [bitsMsbFirst, absorb]
    _ = absorb c d := by rw [← absorb_xor]; simp

theorem crcSerial_eq_foldl_absorb (message : List Byte) :
    crcSerial crc8wfParams message = message.foldl absorb 0xFF := by
  have bytes : (message.flatMap bitsMsbFirst).foldl (shiftInBit crcPoly) 0xFF =
      message.foldl absorb 0xFF := by
    simp only [List.foldl_flatMap, foldl_shiftInBit_bitsMsbFirst]
  exact (BitVec.xor_zero).trans bytes

/-- Settles O4, by `crcSerial_eq_foldl_absorb`: byte by byte, the serial form is the byte step. -/
theorem checksumIsSerialCrcMsbFirst : Obligations.ChecksumIsSerialCrcMsbFirst :=
  ⟨fun message => (crcSerial_eq_foldl_absorb message).symm,
    fun a b => (crcSerial_eq_foldl_absorb [a, b]).symm⟩

/-! ### Bijectivity (R81 parts a, b and c) -/

theorem roundInv_round (x : Byte) : roundInv (round x) = x := by
  revert x; decide

theorem round_roundInv (x : Byte) : round (roundInv x) = x := by
  revert x; decide

/-- Settles O5, by `roundInv_round` and `round_roundInv`. -/
theorem roundHasTheStatedInverse : Obligations.RoundHasTheStatedInverse :=
  ⟨fun x => ⟨roundInv_round x, round_roundInv x⟩, round_zero⟩

@[simp] theorem round_inj {x y : Byte} : round x = round y ↔ x = y :=
  (Function.LeftInverse.injective roundInv_round).eq_iff

@[simp] theorem absorb_right_inj {c d d' : Byte} : absorb c d = absorb c d' ↔ d = d' := by
  simp [absorb]

@[simp] theorem absorb_left_inj {c c' d : Byte} : absorb c d = absorb c' d ↔ c = c' := by
  simp [absorb]

theorem bijective_absorb_right (c : Byte) : Function.Bijective (absorb c ·) :=
  Finite.injective_iff_bijective.mp fun _ _ => absorb_right_inj.mp

theorem bijective_absorb_left (d : Byte) : Function.Bijective (absorb · d) :=
  Finite.injective_iff_bijective.mp fun _ _ => absorb_left_inj.mp

/-- Settles O6: `absorb` is injective in each operand, and the bytes are finitely many. -/
theorem absorbIsBijectiveInEachOperand : Obligations.AbsorbIsBijectiveInEachOperand :=
  ⟨bijective_absorb_right, bijective_absorb_left⟩

theorem check_eq_true_iff {a b t : Byte} : check a b t = true ↔ crc8 a b = t := by
  simp [check]

theorem check_eq_false_iff {a b t : Byte} : check a b t = false ↔ crc8 a b ≠ t := by
  simp [check]

/-- Settles O7: the checksum composes bijections, and what a changed byte would have to equal for
the group to stay valid is the byte itself. -/
theorem checksumIsBijectiveInEachByte : Obligations.ChecksumIsBijectiveInEachByte := by
  refine ⟨fun a => bijective_absorb_right _,
    fun b => (bijective_absorb_left b).comp (bijective_absorb_right crcInitValue),
    fun a b => ⟨crc8 a b, fun x => by rw [check_eq_true_iff, eq_comm]⟩, fun a b t x valid => ?_⟩
  rw [check_eq_true_iff] at valid
  subst valid
  simp only [check_eq_false_iff]
  refine ⟨fun hne => ?_, fun hne => ?_, Ne.symm⟩ <;> simpa [crc8] using hne

/-! ### The table (R79) -/

/-- The table, entry by entry. -/
theorem absorbTable_eq_map :
    absorbTable = (List.finRange 256).map fun i => absorb 0 (.ofFin i) := by
  decide +kernel

theorem absorbTable_nodup : absorbTable.Nodup := by
  rw [absorbTable_eq_map]
  refine (List.nodup_finRange 256).map fun i j h => ?_
  exact BitVec.ofFin.inj (absorb_right_inj.mp h)

theorem absorbTable_getElem? (x : Byte) : absorbTable[x.toNat]? = some (absorb 0 x) := by
  have hx : x.toNat < 256 := x.isLt
  simp [absorbTable_eq_map, hx]

theorem absorbTable_xor_getElem? (c d : Byte) :
    absorbTable[(c ^^^ d).toNat]? = some (absorb c d) := by
  rw [absorbTable_getElem?, ← absorb_eq_absorb_zero]

/-- Settles O3: the table holds `absorb 0 x` at `x`, and `absorb` sees its operands through their
XOR; it has no entry twice because `absorb 0` is injective. -/
theorem absorbIsTableLookup : Obligations.AbsorbIsTableLookup :=
  ⟨by simp [absorbTable_eq_map], absorbTable_nodup, rfl, rfl, absorbTable_getElem?,
    absorbTable_xor_getElem?,
    fun a b => ⟨_, absorbTable_xor_getElem? 0xFF a, absorbTable_xor_getElem? _ b⟩⟩

/-! ### The group test (R80) -/

theorem absorb_eq_zero_iff {x t : Byte} : absorb x t = 0 ↔ x = t := by
  rw [← absorb_self t, absorb_left_inj]

/-- Settles O11, by `check_eq_true_iff` and `absorb_eq_zero_iff`. -/
theorem groupCheckIsZeroResidue : Obligations.GroupCheckIsZeroResidue :=
  ⟨fun _ _ _ => check_eq_true_iff, fun _ _ _ => check_eq_true_iff.trans absorb_eq_zero_iff.symm,
    fun _ _ => absorb_eq_zero_iff, by decide +kernel, by decide +kernel,
    by decide +kernel, by decide +kernel⟩

end Sys2Proof.Machine
end

section
/-! SUPPORT. What the checksum detects, from its linearity over XOR (R81): it is affine (part d),
two valid groups differ in an even number of bits and in at least four (part e), and a burst of 8
bits invalidates a group (part f). -/

namespace Sys2Proof.Machine

/-! ### The checksum is affine (R81 part d) -/

/-- The checksum of two differences, the linear part of `crc8`: that from an empty accumulator. -/
def crc8Linear (a b : Byte) : Byte := absorb (absorb 0 a) b

theorem crc8_eq_linear (a b : Byte) : crc8 a b = 0x81 ^^^ crc8Linear a b := by
  have constant : absorb (absorb 0xFF 0) 0 = 0x81 := by decide +kernel
  rw [crc8Linear, ← constant, ← absorb_xor, ← absorb_xor]
  simp [crc8, crcInitValue]

theorem crc8Linear_xor (a b a' b' : Byte) :
    crc8Linear (a ^^^ a') (b ^^^ b') = crc8Linear a b ^^^ crc8Linear a' b' := by
  rw [crc8Linear, crc8Linear, crc8Linear, ← absorb_xor, ← absorb_xor]
  simp

/-- Settles O8, by `crc8_eq_linear` and `crc8Linear_xor`: of the three constants two cancel. -/
theorem checksumIsAffine : Obligations.ChecksumIsAffine := by
  refine ⟨by decide +kernel, fun a b a' b' => ?_⟩
  rw [crc8_eq_linear a b, crc8_eq_linear a' b', crc8_eq_linear (a ^^^ a'), crc8Linear_xor]
  generalize crc8Linear a b = x, crc8Linear a' b' = y
  calc 0x81 ^^^ x ^^^ (0x81 ^^^ y) ^^^ (0x81 ^^^ (x ^^^ y))
    _ = 0x81 ^^^ ((0x81 ^^^ 0x81) ^^^ ((x ^^^ x) ^^^ (y ^^^ y))) := by ac_rfl
    _ = 0x81 := by simp

/-- The third bytes of two valid groups differ by the linear checksum of the differences of the
other two. -/
theorem check_xor {a b t a' b' t' : Byte} (h : check a b t = true) (h' : check a' b' t' = true) :
    crc8Linear (a ^^^ a') (b ^^^ b') = t ^^^ t' := by
  rw [check_eq_true_iff] at h h'
  rw [crc8Linear_xor, ← h, ← h', crc8_eq_linear a, crc8_eq_linear a']
  generalize crc8Linear a b = x, crc8Linear a' b' = y
  calc x ^^^ y
    _ = (0x81 ^^^ 0x81) ^^^ (x ^^^ y) := by simp
    _ = 0x81 ^^^ x ^^^ (0x81 ^^^ y) := by ac_rfl

/-! ### The 24-bit view of a group (R51) -/

/-- Of a byte placed at position `k` of the 24-bit view, what lies in the byte at `lo` or above. -/
theorem extractLsb'_shiftLeft_of_le (x : Byte) {k lo : Nat} (hlo : lo + 8 ≤ 24) (h : lo ≤ k) :
    (x.setWidth 24 <<< k).extractLsb' lo 8 = x <<< (k - lo) := by
  ext i hi
  have : lo + i < 24 := by omega
  have : lo + i < k ↔ i < k - lo := by omega
  have : lo + i - k = i - (k - lo) := by omega
  have : i - (k - lo) < 24 := by omega
  have : i - (k - lo) < 8 := by omega
  simp [*]

/-- Of a byte placed at position `k` of the 24-bit view, what is left in the byte above. -/
theorem extractLsb'_shiftLeft_of_ge (x : Byte) {k lo : Nat} (hlo : lo + 8 ≤ 24) (h : k ≤ lo) :
    (x.setWidth 24 <<< k).extractLsb' lo 8 = x >>> (lo - k) := by
  ext i hi
  have : lo + i < 24 := by omega
  have : ¬ lo + i < k := by omega
  have : lo + i - k = lo - k + i := by omega
  have : lo - k + i < 24 := by omega
  simp [*]

section

variable (a b c : Byte)

theorem groupBits_eq_shifts :
    groupBits a b c =
      (a.setWidth 24 <<< 16) ||| (b.setWidth 24 <<< 8) ||| (c.setWidth 24 <<< 0) := by
  rw [groupBits, BitVec.shiftLeft_zero]

@[simp] theorem extractLsb'_groupBits_hi : (groupBits a b c).extractLsb' 16 8 = a := by
  rw [groupBits_eq_shifts, BitVec.extractLsb'_or, BitVec.extractLsb'_or,
    extractLsb'_shiftLeft_of_le a (by decide) (by decide),
    extractLsb'_shiftLeft_of_ge b (by decide) (by decide),
    extractLsb'_shiftLeft_of_ge c (by decide) (by decide)]
  simp [BitVec.ushiftRight_eq_zero]

@[simp] theorem extractLsb'_groupBits_mid : (groupBits a b c).extractLsb' 8 8 = b := by
  rw [groupBits_eq_shifts, BitVec.extractLsb'_or, BitVec.extractLsb'_or,
    extractLsb'_shiftLeft_of_le a (by decide) (by decide),
    extractLsb'_shiftLeft_of_le b (by decide) (by decide),
    extractLsb'_shiftLeft_of_ge c (by decide) (by decide)]
  simp [BitVec.ushiftRight_eq_zero]

@[simp] theorem extractLsb'_groupBits_lo : (groupBits a b c).extractLsb' 0 8 = c := by
  rw [groupBits_eq_shifts, BitVec.extractLsb'_or, BitVec.extractLsb'_or,
    extractLsb'_shiftLeft_of_le a (by decide) (by decide),
    extractLsb'_shiftLeft_of_le b (by decide) (by decide),
    extractLsb'_shiftLeft_of_le c (by decide) (by decide)]
  simp

end

theorem groupBits_inj {a b c a' b' c' : Byte} :
    groupBits a b c = groupBits a' b' c' ↔ (a, b, c) = (a', b', c') := by
  refine ⟨fun h => ?_, fun h => by cases h; rfl⟩
  have hi : a = a' := by simpa using congrArg (·.extractLsb' 16 8) h
  have mid : b = b' := by simpa using congrArg (·.extractLsb' 8 8) h
  have lo : c = c' := by simpa using congrArg (·.extractLsb' 0 8) h
  rw [hi, mid, lo]

/-- What the group test sees of a 24-bit difference (R80): its last byte XORed with the linear
checksum of the other two. -/
def residue (v : BitVec 24) : Byte :=
  crc8Linear (v.extractLsb' 16 8) (v.extractLsb' 8 8) ^^^ v.extractLsb' 0 8

theorem residue_xor (u v : BitVec 24) : residue (u ^^^ v) = residue u ^^^ residue v := by
  simp only [residue, BitVec.extractLsb'_xor, crc8Linear_xor]
  ac_rfl

/-- The difference of two valid groups has residue zero. -/
theorem residue_groupBits_xor {a b t a' b' t' : Byte} (h : check a b t = true)
    (h' : check a' b' t' = true) : residue (groupBits a b t ^^^ groupBits a' b' t') = 0 := by
  simp [residue, BitVec.extractLsb'_xor, check_xor h h']

/-! ### Bursts (R81 part f) -/

/-- A burst over two adjacent bytes is no difference of valid groups: what it leaves in the first of
them, absorbed, is not what it leaves in the second. -/
theorem burst_parts_eq_zero {burst : Byte} {r : Nat} (hr : r ≤ 8)
    (h : absorb 0 (burst >>> (8 - r)) = burst <<< r) : burst = 0 := by
  have all : ∀ r : Fin 9, ∀ burst : Byte, absorb 0 (burst >>> (8 - r.val)) = burst <<< r.val →
      burst = 0 := by decide +kernel
  exact all ⟨r, by omega⟩ burst h

/-- The burst lies in two adjacent bytes. Either the first byte is as it was, and the last two are
the burst's parts, or the last byte is, and the first two are. -/
theorem burst_eq_zero_of_residue {burst : Byte} {k : Nat} (hk : k ≤ 16)
    (h : residue (burst.setWidth 24 <<< k) = 0) : burst = 0 := by
  have residues := BitVec.xor_eq_zero_iff.mp h
  obtain hlow | hhigh := Nat.le_total k 8
  · rw [extractLsb'_shiftLeft_of_ge _ (by decide) hk,
      extractLsb'_shiftLeft_of_ge _ (by decide) hlow,
      extractLsb'_shiftLeft_of_le _ (by decide) (Nat.zero_le k),
      BitVec.ushiftRight_eq_zero (by omega)] at residues
    exact burst_parts_eq_zero hlow (by simpa [crc8Linear] using residues)
  · rw [extractLsb'_shiftLeft_of_ge _ (by decide) hk,
      extractLsb'_shiftLeft_of_le _ (by decide) hhigh,
      extractLsb'_shiftLeft_of_le _ (by decide) (Nat.zero_le k),
      BitVec.shiftLeft_eq_zero (n := k - 0) (by omega)] at residues
    have position : 8 - (k - 8) = 16 - k := by omega
    refine burst_parts_eq_zero (r := k - 8) (by omega) ?_
    rw [position]
    exact absorb_eq_zero_iff.mp residues

/-- Settles O10, by `residue_groupBits_xor` and `burst_eq_zero_of_residue`: no burst but the empty
one is a difference of valid groups. -/
theorem shortBurstInvalidatesGroup : Obligations.ShortBurstInvalidatesGroup := by
  intro a b t a' b' t' burst k valid hk hne hdiff
  by_contra hvalid
  have zero := residue_groupBits_xor valid (by simpa using hvalid)
  rw [hdiff] at zero
  rw [burst_eq_zero_of_residue hk zero] at hdiff
  exact hne (groupBits_inj.mp (by simpa using hdiff))

/-! ### The distance of valid groups (R81 part e) -/

/-- The positions of the set bits of a 24-bit view. -/
def setBits (v : BitVec 24) : List Nat := (List.range 24).filter (v.getLsbD ·)

/-- The 24-bit view with bits set at the positions of a list. -/
def ofSetBits (l : List Nat) : BitVec 24 := l.foldr (fun i v => .twoPow 24 i ^^^ v) 0#24

theorem setBits_length (v : BitVec 24) : (setBits v).length = bitWeight v :=
  List.countP_eq_length_filter.symm

theorem setBits_nodup (v : BitVec 24) : (setBits v).Nodup := List.nodup_range.filter _

theorem lt_of_mem_setBits {v : BitVec 24} {i : Nat} (h : i ∈ setBits v) : i < 24 :=
  List.mem_range.mp (List.mem_filter.mp h).1

theorem getLsbD_ofSetBits {l : List Nat} (hl : l.Nodup) {i : Nat} (hi : i < 24) :
    (ofSetBits l).getLsbD i = decide (i ∈ l) := by
  induction l with
  | nil => simp [ofSetBits]
  | cons j l ih =>
    obtain ⟨hj, hl⟩ := List.nodup_cons.mp hl
    have first : ofSetBits (j :: l) = .twoPow 24 j ^^^ ofSetBits l := rfl
    rw [first, BitVec.getLsbD_xor, BitVec.getLsbD_twoPow, ih hl]
    by_cases hij : i = j
    · subst hij; simp [hj, hi]
    · simp [hij, Ne.symm hij]

theorem ofSetBits_setBits (v : BitVec 24) : ofSetBits (setBits v) = v := by
  ext i hi
  have same := getLsbD_ofSetBits (setBits_nodup v) hi
  simpa [setBits, hi] using same

/-- The XOR of the bits of a byte at the positions of a list. -/
def xorBits (l : List Nat) (c : Byte) : Bool := l.foldr (fun i p => c.getLsbD i ^^ p) false

/-- Whether a byte has an odd number of set bits. -/
def oddParity (c : Byte) : Bool := xorBits (List.range 8) c

theorem xorBits_xor (l : List Nat) (x y : Byte) :
    xorBits l (x ^^^ y) = (xorBits l x ^^ xorBits l y) := by
  induction l with
  | nil => rfl
  | cons i l ih =>
    have first (c : Byte) : xorBits (i :: l) c = (c.getLsbD i ^^ xorBits l c) := rfl
    rw [first, first, first, ih, BitVec.getLsbD_xor]
    simp only [Bool.xor_assoc, Bool.xor_left_comm]

theorem oddParity_zero : oddParity 0 = false := by decide

theorem oddParity_xor (x y : Byte) : oddParity (x ^^^ y) = (oddParity x ^^ oddParity y) :=
  xorBits_xor _ x y

/-- A single changed bit leaves a residue of odd parity, and another one at each position. -/
theorem oddParity_residue_twoPow : ∀ i < 24, oddParity (residue (.twoPow 24 i)) = true := by
  decide +kernel

theorem residue_twoPow_inj :
    ∀ i < 24, ∀ j < 24, residue (.twoPow 24 i) = residue (.twoPow 24 j) → i = j := by
  decide +kernel

/-- The residue's parity is that of the number of changed bits. -/
theorem oddParity_residue_ofSetBits {l : List Nat} (hl : ∀ i ∈ l, i < 24) :
    oddParity (residue (ofSetBits l)) = decide (l.length % 2 = 1) := by
  induction l with
  | nil => decide +kernel
  | cons i l ih =>
    have first : ofSetBits (i :: l) = .twoPow 24 i ^^^ ofSetBits l := rfl
    rw [first, residue_xor, oddParity_xor, oddParity_residue_twoPow i (hl i (by simp)),
      ih fun j hj => hl j (by simp [hj]), List.length_cons, Bool.true_xor, ← decide_not]
    congr 1
    rw [eq_iff_iff]
    omega

/-- A nonzero difference of residue zero has an even number of set bits, not none and not two, for
then the two residues would be equal. -/
theorem four_le_bitWeight_of_residue {v : BitVec 24} (hv : v ≠ 0) (h : residue v = 0) :
    4 ≤ bitWeight v ∧ bitWeight v % 2 = 0 := by
  have hlt : ∀ i ∈ setBits v, i < 24 := fun i => lt_of_mem_setBits
  have hodd := oddParity_residue_ofSetBits hlt
  rw [ofSetBits_setBits, h, setBits_length, oddParity_zero] at hodd
  have heven : bitWeight v % 2 = 0 := by simpa using hodd
  have hnone : bitWeight v ≠ 0 := by
    rw [← setBits_length]
    intro hlen
    rw [← ofSetBits_setBits v, List.length_eq_zero_iff.mp hlen] at hv
    exact hv rfl
  have htwo : bitWeight v ≠ 2 := by
    rw [← setBits_length]
    intro hlen
    obtain ⟨i, j, hij⟩ := List.length_eq_two.mp hlen
    have hne : i ≠ j := by simpa [hij] using setBits_nodup v
    have pair : v = .twoPow 24 i ^^^ .twoPow 24 j := by
      rw [← ofSetBits_setBits v, hij]; simp [ofSetBits]
    rw [pair, residue_xor] at h
    exact hne (residue_twoPow_inj i (hlt i (by simp [hij])) j (hlt j (by simp [hij]))
      (BitVec.xor_eq_zero_iff.mp h))
  omega

/-- Settles O9: the difference of two valid groups has residue zero (`residue_groupBits_xor`). -/
theorem validGroupsDifferInFourBits : Obligations.ValidGroupsDifferInFourBits := by
  intro a b t a' b' t' h h' hne
  refine four_le_bitWeight_of_residue (fun hzero => hne ?_) (residue_groupBits_xor h h')
  exact groupBits_inj.mp (BitVec.xor_eq_zero_iff.mp hzero)

end Sys2Proof.Machine
end

section
/-! SUPPORT. The encoder of spec/30_encoding.md against its decoder: each request word decodes to
the micro-operation it was written for (R53 to R57), and the words and lines that the spec writes
out (R58). -/

namespace Sys2Proof.Machine

open Laws.RequestWords (opsel_mkRequest)

/-! ### The fields of a request word (R53, R55) -/

@[simp] theorem reqDin_mkRequest (o : BitVec 4) (d : BitVec 16) : reqDin (mkRequest o d) = d := by
  ext i hi
  have : i < 20 := by omega
  simp [reqDin, mkRequest, *]

@[simp] theorem reqByte_mkRequest (o : BitVec 4) (d8 : Byte) :
    reqByte (mkRequest o (dinOfByte d8)) = d8 := by
  ext i hi
  have : i < 16 := by omega
  have : i < 20 := by omega
  simp [reqByte, mkRequest, dinOfByte, *]

/-! ### What the request words of an operation decode to (R54, R56) -/

section

variable (d : BitVec 16) (d8 : Byte) (w16 : Word)

@[simp] theorem decode_mkRequest_crcInit : decode (mkRequest 0#4 d) = .crcInit :=
  decode_eq_iff.mpr (.crcInit (opsel_mkRequest _ _))

@[simp] theorem decode_mkRequest_crcByte : decode (mkRequest 1#4 (dinOfByte d8)) = .crcByte d8 :=
  (decode_eq_iff.mpr (.crcByte (opsel_mkRequest _ _))).trans (congrArg _ (reqByte_mkRequest _ _))

@[simp] theorem decode_mkRequest_crcRead : decode (mkRequest 2#4 d) = .crcRead :=
  decode_eq_iff.mpr (.crcRead (opsel_mkRequest _ _))

@[simp] theorem decode_mkRequest_txOpc : decode (mkRequest 3#4 w16) = .txOpc w16 :=
  (decode_eq_iff.mpr (.txOpc (opsel_mkRequest _ _))).trans (congrArg _ (reqDin_mkRequest _ _))

@[simp] theorem decode_mkRequest_txWord : decode (mkRequest 4#4 w16) = .txWord w16 :=
  (decode_eq_iff.mpr (.txWord (opsel_mkRequest _ _))).trans (congrArg _ (reqDin_mkRequest _ _))

@[simp] theorem decode_mkRequest_rxStart : decode (mkRequest 5#4 d) = .rxStart :=
  decode_eq_iff.mpr (.rxStart (opsel_mkRequest _ _))

@[simp] theorem decode_mkRequest_rxByte : decode (mkRequest 6#4 (dinOfByte d8)) = .rxByte d8 :=
  (decode_eq_iff.mpr (.rxByte (opsel_mkRequest _ _))).trans (congrArg _ (reqByte_mkRequest _ _))

@[simp] theorem decode_mkRequest_rxEnd : decode (mkRequest 7#4 d) = .rxEnd :=
  decode_eq_iff.mpr (.rxEnd (opsel_mkRequest _ _))

end

theorem decode_mkRequest_reserved {o : BitVec 4} (d : BitVec 16) (h : 8 ≤ o.toNat) :
    decode (mkRequest o d) = .reserved o d := by
  rw [decode_reserved (by rwa [opsel_mkRequest]), opsel_mkRequest, reqDin_mkRequest]

/-- The request words of a well-formed operation decode one by one to its expansion. -/
theorem map_decode_encode {i : Instr} (hwf : wellFormed i = true) :
    (encode i).map decode = expand i := by
  cases i with
  | crcInit | crcByte | crcRead | txOpc | txWord | rxStart | rxByte | rxEnd | crc8 | encc =>
    simp [encode, expand]
  | encw op words => simp [encode, expand]
  | decw raw => simp [encode, expand]
  | reserved o d =>
    rw [encode, List.map_singleton, decode_mkRequest_reserved d (of_decide_eq_true hwf), expand]

/-- Settles O38, by `map_decode_encode`: each word is `mkRequest` of a selector and an operand, and
decodes to the micro-operation of that selector. -/
theorem decodeUndoesEncode : Obligations.DecodeUndoesEncode :=
  fun _ => map_decode_encode

/-! ### Words and lines that the spec writes out -/

/-- Settles O41: each is one evaluation of the decoder. -/
theorem specWordsDecode : Obligations.SpecWordsDecode := by
  unfold Obligations.SpecWordsDecode
  decide

/-- Settles O42: each is one evaluation of the assembler. -/
theorem assemblerLineExamples : Obligations.AssemblerLineExamples :=
  ⟨rfl, rfl, rfl, rfl⟩

end Sys2Proof.Machine
end

section
/-! SUPPORT. An operation is its expansion (R57): within the sizes of R4 a macro-operation does what
its micro-operations do one after another (log entries 4 and 17), and so do its request words,
presented one by one (R147). -/

namespace Sys2Proof.Machine

/-! ### Runs of operations -/

@[simp] theorem execAll_nil (s : State) : execAll [] s = .next s := rfl

theorem execAll_cons_of_next {i : Instr} {ops : List Instr} {s m : State}
    (h : exec i s = .next m) : execAll (i :: ops) s = execAll ops m :=
  runAll_cons_of_next h

theorem execAll_cons_of_refused {i : Instr} {ops : List Instr} {s : State} {r : Refusal}
    (h : exec i s = .refused r) : execAll (i :: ops) s = .refused r := by
  simp [execAll, runAll, h]

theorem execAll_append_of_next {ops ops' : List Instr} {s m : State}
    (h : execAll ops s = .next m) : execAll (ops ++ ops') s = execAll ops' m := by
  rw [execAll, List.map_append]
  exact runAll_append_of_next h

theorem execAll_singleton (i : Instr) (s : State) : execAll [i] s = exec i s := by
  cases h : exec i s <;> simp [execAll, runAll, h]

theorem map_exec_txWord (words : List Word) :
    (words.map Instr.txWord).map exec = words.map execTxWord :=
  List.map_map

theorem map_exec_rxByte (raw : List Byte) :
    (raw.map Instr.rxByte).map exec = raw.map execRxByte :=
  List.map_map

theorem execAll_rxBytes (raw : List Byte) (s : State) :
    execAll (raw.map .rxByte) s = runAll (raw.map execRxByte) s := by
  rw [execAll, map_exec_rxByte]

/-! ### An operation is its expansion (R57) -/

theorem execEncw_of_fits {op : Word} {words : List Word} {s : State}
    (h : nwFits s.cfg words.length = true) :
    execEncw op words s = execAll (expand (.encw op words)) s := by
  rw [execEncw, if_pos h, expand, execAll, List.map_cons, map_exec_txWord]
  rfl

theorem execDecw_of_fits {raw : List Byte} {s : State} (h : rawFits s.cfg raw.length = true) :
    execDecw raw s = execAll (expand (.decw raw)) s := by
  rw [execDecw, if_pos h, expand, execAll, List.map_cons, List.map_append, map_exec_rxByte]
  rfl

/-- Within the sizes of R4 an operation does what its expansion does. -/
theorem exec_eq_execAll_expand {i : Instr} {s : State} (h : sizeFits i s.cfg = true) :
    exec i s = execAll (expand i) s := by
  cases i with
  | crcInit | crcByte | crcRead | txOpc | txWord | rxStart | rxByte | rxEnd | reserved =>
    exact (execAll_singleton _ s).symm
  | crc8 | encc => rfl
  | encw op words => exact execEncw_of_fits h
  | decw raw => exact execDecw_of_fits h

/-- Settles O27: the size is tested before any micro-operation. -/
theorem oversizedTransactionIsRefused : Obligations.OversizedTransactionIsRefused := by
  refine ⟨fun op words s m hmax hlt => ?_, fun raw s m hmax hlt => ?_⟩
  · have hover : nwFits s.cfg words.length = false := by simp [nwFits, hmax, hlt]
    exact if_neg (by simp [hover])
  · have hover : rawFits s.cfg raw.length = false := by simp [rawFits, hmax, hlt]
    exact if_neg (by simp [hover])

/-! ### Request words one by one (R147) -/

/-- An outcome with other inputs to come. -/
def withInputs (later : List HostInput) (o : Result) : Result :=
  match o with
  | .next t => .next { t with inputs := later }
  | .fault r => .fault r
  | .refused r => .refused r

theorem commit_inputs (later : List HostInput) (p : Regs × List Out) (s : State) :
    commit { s with inputs := later } p = withInputs later (commit s p) := by
  obtain ⟨r, os⟩ := p
  rw [commit_eq, commit_eq]; rfl

/-- What the host presents next has no part in what a request word's operation answers. -/
theorem exec_decode_inputs (later : List HostInput) (w : Request) (s : State) :
    exec (decode w) { s with inputs := later } = withInputs later (exec (decode w) s) := by
  have hw := decodes_decode w
  generalize decode w = i at hw
  cases hw with
  | crcInit | crcByte | crcRead | txOpc | txWord | rxStart | rxEnd => exact commit_inputs later _ s
  | rxByte =>
    simp only [exec, execRxByte]
    split
    · rfl
    · exact commit_inputs later _ s
  | reserved => rfl

theorem core_run_of_step_next {k : Nat} {s m : State} (h : step s = .next m) :
    Host.Core.run Sys2Proof.core (k + 1) s = Host.Core.run Sys2Proof.core k m := by
  have core_step : Sys2Proof.core.step s = .next m := h
  simp only [Host.Core.run, core_step]

theorem core_run_of_step_refused {k : Nat} {s : State} {r : Refusal} (h : step s = .refused r) :
    Host.Core.run Sys2Proof.core (k + 1) s = .refused r := by
  have core_step : Sys2Proof.core.step s = .refused r := h
  simp only [Host.Core.run, core_step]

/-- Request words presented one by one, each in a step of its own, do what the operations they
decode to do one after another. -/
theorem run_requests (ws : List Request) (rest : List HostInput) (s : State) :
    Host.Core.run Sys2Proof.core ws.length { s with inputs := ws.map .request ++ rest } =
      execAll (ws.map decode) { s with inputs := rest } := by
  induction ws generalizing s with
  | nil => rfl
  | cons w ws ih =>
    have answers (later : List HostInput) :
        exec (decode w) { s with inputs := later } = withInputs later (exec (decode w) s) :=
      exec_decode_inputs later w s
    have steps : step { s with inputs := .request w :: (ws.map .request ++ rest) } =
        withInputs (ws.map .request ++ rest) (exec (decode w) s) := answers _
    cases h : exec (decode w) s with
    | next m =>
      simp only [h, withInputs] at answers steps
      exact ((core_run_of_step_next steps).trans (ih m)).trans
        (execAll_cons_of_next (answers rest)).symm
    | fault r => cases r
    | refused r =>
      simp only [h, withInputs] at answers steps
      exact (core_run_of_step_refused steps).trans (execAll_cons_of_refused (answers rest)).symm

theorem encode_length (i : Instr) : (encode i).length = microCount i := by
  cases i with
  | encw op words => simp [encode, microCount, Nat.add_comm]
  | decw raw => simp [encode, microCount]
  | _ => rfl

/-- Settles O29: the request words run as what they decode to (`run_requests`), which is the
expansion (`map_decode_encode`), which is what the named operation does (`exec_eq_execAll_expand`).
-/
theorem operationEqualsItsRequestWords : Obligations.OperationEqualsItsRequestWords := by
  intro i s rest hwf hfits
  have words := run_requests (encode i) rest s
  rw [encode_length, map_decode_encode hwf] at words
  exact words.trans (exec_eq_execAll_expand (by exact hfits)).symm

end Sys2Proof.Machine
end

section
/-! SUPPORT. The macro-operations as pure functions (R57): CRC8 (R76), ENCW (R94) and DECW (R105);
when an operation completes (R15, R120, U3), and that what a macro-operation emits does not depend
on the state it starts in (R18, R142). -/

namespace Sys2Proof.Machine

/-! ### CRC8 (R76) -/

theorem execCrc8_eq (a b : Byte) (s : State) :
    execCrc8 a b s = .next { s with
      regs := { s.regs with crc := crc8 a b }, bout := s.bout ++ [crc8 a b] } := by
  rw [execCrc8, runAll_cons_of_next (execCrcInit_eq s), runAll_cons_of_next (execCrcByte_eq a _),
    runAll_cons_of_next (execCrcByte_eq b _), runAll_cons_of_next (execCrcRead_eq _)]
  rfl

/-- Settles O23, by `execCrc8_eq`; the sequence is the macro-operation's expansion. -/
theorem crc8EmitsChecksum : Obligations.Crc8EmitsChecksum :=
  fun a b s => ⟨execCrc8_eq a b s, rfl⟩

/-! ### ENCW (R94) -/

/-- What CRC holds after the TX.WORDs of a list of words: the last word's checksum, or for no words
what it held. -/
def crcAfterWords (words : List Word) (c : Byte) : Byte :=
  (words.getLast?.map fun w => crc8 (hiByte w) (loByte w)).getD c

theorem crcAfterWords_cons (w : Word) (words : List Word) (c : Byte) :
    crcAfterWords (w :: words) c = crcAfterWords words (crc8 (hiByte w) (loByte w)) := by
  cases h : words.getLast? <;> simp [crcAfterWords, List.getLast?_cons, h]

theorem execAll_txWords (words : List Word) (s : State) :
    execAll (words.map .txWord) s = .next { s with
      regs := { s.regs with crc := crcAfterWords words s.regs.crc },
      bout := s.bout ++ words.flatMap group } := by
  induction words generalizing s with
  | nil => simp [crcAfterWords]
  | cons w words ih =>
    rw [List.map_cons, execAll_cons_of_next (i := .txWord w) (execTxWord_eq w s), ih]
    simp [crcAfterWords_cons]

theorem execAll_expand_encw (op : Word) (words : List Word) (s : State) :
    execAll (expand (.encw op words)) s = .next { s with
      regs := { s.regs with crc := crcAfterWords words s.regs.crc },
      bout := s.bout ++ encw op words } := by
  rw [expand, execAll_cons_of_next (i := .txOpc op) (execTxOpc_eq op s), execAll_txWords]
  simp [encw]

theorem execEncw_eq {op : Word} {words : List Word} {s : State}
    (h : nwFits s.cfg words.length = true) :
    execEncw op words s = .next { s with
      regs := { s.regs with crc := crcAfterWords words s.regs.crc },
      bout := s.bout ++ encw op words } := by
  rw [execEncw_of_fits h, execAll_expand_encw]

/-- Settles O25: TX.OPC emits the opcode's two bytes, and each TX.WORD then one group, by induction
on the words (`execAll_txWords`). -/
theorem encwRefinesPureFunction : Obligations.EncwRefinesPureFunction :=
  ⟨fun op s => execTxOpc_eq op s, execAll_expand_encw, fun _ _ _ h => execEncw_eq h⟩

/-! ### RX.BYTE, refused or received (R103, U3) -/

/-- The next state of RX.BYTE, where it is not refused. -/
def received (d8 : Byte) (s : State) : State :=
  if s.regs.stop = true then s
  else if s.regs.ph = .msb then
    { s with regs := { s.regs with msb := d8, crc := absorb 0xFF d8, ph := .lsb } }
  else if s.regs.ph = .lsb then
    { s with regs := { s.regs with lsb := d8, crc := absorb s.regs.crc d8, ph := .check } }
  else if d8 = s.regs.crc then
    { s with regs := { s.regs with wcnt := s.regs.wcnt + 1, ph := .msb },
             wout := s.wout ++ [joinBytes s.regs.msb s.regs.lsb] }
  else { s with regs := { s.regs with stop := true, ph := .msb } }

/-- A byte that closes no group is received whatever WCNT is. -/
theorem execRxByte_eq_received {d8 : Byte} {s : State}
    (h : closesGroup d8 s.regs = true → wcntFits s.cfg (s.regs.wcnt + 1) = true) :
    execRxByte d8 s = .next (received d8 s) := by
  cases hs : s.regs.stop with
  | true => rw [execRxByte_stopped hs, received, if_pos hs]
  | false =>
    cases hp : s.regs.ph with
    | msb => rw [execRxByte_msb hs hp]; simp [received, hs, hp, crcInitValue]
    | lsb => rw [execRxByte_lsb hs hp]; simp [received, hs, hp]
    | check =>
      by_cases hd : d8 = s.regs.crc
      · rw [execRxByte_match hs hp hd (h (closesGroup_iff.mpr ⟨hs, hp, hd⟩))]
        simp [received, hs, hp, hd]
      · rw [execRxByte_mismatch hs hp hd]; simp [received, hs, hp, hd, mismatch]

/-- Settles O20: a byte that closes a group WCNT cannot count is refused (`execRxByte_overflow`),
and any other is received (`execRxByte_eq_received`). -/
theorem rxByteRefusedOnlyWhenCountIsFull : Obligations.RxByteRefusedOnlyWhenCountIsFull := by
  intro s d8
  by_cases hfull : (s.regs.stop = false ∧ s.regs.ph = .check ∧ d8 = s.regs.crc) ∧
      wcntFits s.cfg (s.regs.wcnt + 1) = false
  · obtain ⟨⟨hs, hp, hd⟩, hfit⟩ := id hfull
    have refused : exec (.rxByte d8) s = .refused .wcntOverflow := execRxByte_overflow hs hp hd hfit
    refine ⟨⟨fun _ => hfull, fun _ => ⟨_, refused⟩⟩, fun r hr => ?_, fun h => absurd hfull h⟩
    rw [refused] at hr
    cases hr; rfl
  · have answered : exec (.rxByte d8) s = .next (received d8 s) :=
      execRxByte_eq_received fun hcloses => by
        by_contra hfit
        exact hfull ⟨closesGroup_iff.mp hcloses, by simpa using hfit⟩
    refine ⟨⟨fun ⟨r, hr⟩ => ?_, fun h => absurd h hfull⟩, fun r hr => ?_, fun _ => answered⟩ <;>
    · rw [answered] at hr
      cases hr

/-! ### DECW (R105) -/

theorem someGroupInvalid_of_short {raw : List Byte} (h : raw.length < 3) :
    someGroupInvalid raw = false := by
  simp [someGroupInvalid, firstInvalid_of_short h, groupCount_of_short h]

/-- What a receiver that was in `s` has counted, and whether it is stopped, once it has received
`raw`. -/
structure Received (raw : List Byte) (s t : State) : Prop where
  wcnt : t.regs.wcnt = s.regs.wcnt + (decw raw).length
  stop : t.regs.stop = someGroupInvalid raw

theorem received_of_short {raw : List Byte} (h : raw.length < 3) {s t : State}
    (hwcnt : t.regs.wcnt = s.regs.wcnt) (hstop : t.regs.stop = false) : Received raw s t :=
  ⟨by simp [hwcnt, decw_of_short h], by rw [hstop, someGroupInvalid_of_short h]⟩

/-- The state after a valid group. -/
def acceptGroup (a b : Byte) (s : State) : State :=
  { s with
    regs := { s.regs with
      crc := crc8 a b, msb := a, lsb := b, ph := .msb, wcnt := s.regs.wcnt + 1 },
    wout := s.wout ++ [joinBytes a b] }

theorem acceptGroup_wcnt (a b : Byte) (s : State) :
    (acceptGroup a b s).regs.wcnt = s.regs.wcnt + 1 := rfl

/-- The state after an invalid group. -/
def rejectGroup (a b : Byte) (s : State) : State :=
  { s with regs := { s.regs with crc := crc8 a b, msb := a, lsb := b, ph := .msb, stop := true } }

section

variable {a b c : Byte} {s : State} (hs : s.regs.stop = false) (hp : s.regs.ph = .msb)
include hs hp

theorem runAll_validGroup (h : check a b c = true) (hfit : wcntFits s.cfg (s.regs.wcnt + 1) = true)
    (fs : List (State → Result)) :
    runAll (execRxByte a :: execRxByte b :: execRxByte c :: fs) s =
      runAll fs (acceptGroup a b s) := by
  rw [runAll_firstTwoBytes hs hp]
  refine runAll_cons_of_next (execRxByte_match ?_ ?_ ?_ ?_)
  · exact hs
  · rfl
  · exact (check_eq_true_iff.mp h).symm
  · exact hfit

theorem runAll_invalidGroup (h : check a b c = false) (rest : List Byte) :
    runAll ((a :: b :: c :: rest).map execRxByte) s = .next (rejectGroup a b s) := by
  simp only [List.map_cons, runAll_firstTwoBytes hs hp]
  refine (runAll_cons_of_next (execRxByte_mismatch ?_ ?_ ?_)).trans
    (runAll_execRxByte_stopped rfl rest)
  · exact hs
  · rfl
  · exact (check_eq_false_iff.mp h).symm

end

/-- A receiver that is not stopped and at the start of a group receives `raw` to the end, when WCNT
can count a word for each complete group. -/
theorem runAll_execRxByte_completes {raw : List Byte} {s : State} (hs : s.regs.stop = false)
    (hp : s.regs.ph = .msb) (hfit : wcntFits s.cfg (s.regs.wcnt + groupCount raw) = true) :
    ∃ t, runAll (raw.map execRxByte) s = .next t ∧ Received raw s t := by
  induction raw using groups_induction generalizing s with
  | short raw hlen =>
    match raw, hlen with
    | [], hlen => exact ⟨s, rfl, received_of_short hlen rfl hs⟩
    | [a], hlen =>
      exact ⟨_, runAll_cons_of_next (execRxByte_msb hs hp), received_of_short hlen rfl hs⟩
    | [a, b], hlen => exact ⟨_, runAll_firstTwoBytes hs hp a b [], received_of_short hlen rfl hs⟩
    | _ :: _ :: _ :: _, hlen => simp at hlen; omega
  | group a b c rest ih =>
    cases h : check a b c with
    | false =>
      exact ⟨_, runAll_invalidGroup hs hp h rest, by rw [decw_of_not_check rest h]; rfl,
        (someGroupInvalid_of_not_check rest h).symm⟩
    | true =>
      rw [groupCount_cons] at hfit
      obtain ⟨t, hrun, hwcnt, hstop⟩ := ih (s := acceptGroup a b s) hs rfl
        (by rwa [acceptGroup_wcnt, Nat.add_assoc, Nat.add_comm 1])
      refine ⟨t, ?_, ?_, by rw [hstop, someGroupInvalid_of_check rest h]⟩
      · exact (runAll_validGroup hs hp h (wcntFits_mono hfit (by omega)) _).trans hrun
      · rw [hwcnt, decw_of_check rest h, List.length_cons, acceptGroup_wcnt]
        omega

/-- The record that DECW of `raw` emits (R104). -/
def decwRecord (raw : List Byte) : StatRec :=
  { count := (decw raw).length, empty := emptyFlag (decw raw).length }

/-- What a DECW that completes leaves behind (R105). -/
structure DecwEffect (raw : List Byte) (s t : State) : Prop where
  emits : Emits s t [] (decw raw) [decwRecord raw]
  inputs : t.inputs = s.inputs
  cfg : t.cfg = s.cfg
  ph : t.regs.ph = .msb
  wcnt : t.regs.wcnt = (decw raw).length
  stop : t.regs.stop = someGroupInvalid raw

theorem execRxStart_next {s t : State} (h : execRxStart s = .next t) : t.cfg = s.cfg ∧
    t.wout = s.wout ∧ t.regs.stop = false ∧ t.regs.ph = .msb ∧ t.regs.wcnt = 0 := by
  cases (execRxStart_eq s).symm.trans h
  exact ⟨rfl, rfl, rfl, rfl, rfl⟩

theorem execDecw_completes {raw : List Byte} {s : State} (ok : configOk s.cfg = true)
    (hraw : rawFits s.cfg raw.length = true) :
    ∃ t, execDecw raw s = .next t ∧ DecwEffect raw s t := by
  obtain ⟨u, hstart⟩ : ∃ u, execRxStart s = .next u := ⟨_, execRxStart_eq s⟩
  obtain ⟨hcfg, _, hs, hp, hzero⟩ := execRxStart_next hstart
  have hfit : wcntFits u.cfg (u.regs.wcnt + groupCount raw) = true := by
    rw [hcfg, hzero, Nat.zero_add]
    exact wcntFits_of_rawFits ok hraw
  obtain ⟨v, hbytes, hwcnt, hstop⟩ := runAll_execRxByte_completes hs hp hfit
  have hcount : v.regs.wcnt = (decw raw).length := by rw [hwcnt, hzero, Nat.zero_add]
  obtain ⟨t, hend, hemits, hregs⟩ : ∃ t, execRxEnd v = .next t ∧
      Emits v t [] [] [decwRecord raw] ∧ t.regs = { v.regs with ph := .msb } := by
    refine ⟨_, execRxEnd_eq v, ⟨?_, ?_, ?_⟩, rfl⟩
    · simp
    · simp
    · rw [decwRecord, hcount]
  have hdecw := execDecw_eq_next.mpr ⟨hraw, u, v, hstart, hbytes, hend⟩
  obtain ⟨_, hinputs, hcfg'⟩ := readsNoOutput_exec (.decw raw) s t hdecw
  have words := ((emits_of_commit hstart).trans (runAll_execRxByte_emits hs hp hbytes)).trans hemits
  exact ⟨t, hdecw, by simpa [rxStartStep, bytesOf, wordsOf, recordsOf] using words, hinputs, hcfg',
    by rw [hregs], by rw [hregs, hcount], by rw [hregs, hstop]⟩

theorem decwRecord_eq (raw : List Byte) :
    decwRecord raw = { count := (decw raw).length, empty := decide (decw raw = []) } := by
  cases h : decw raw <;> simp [decwRecord, emptyFlag, h]

/-- Settles O26, by `execDecw_completes`; the sequence is the macro-operation's expansion
(`execDecw_of_fits`). -/
theorem decwRefinesPureFunction : Obligations.DecwRefinesPureFunction := by
  intro raw s ok hraw
  obtain ⟨t, hdecw, effect⟩ := execDecw_completes ok hraw
  refine ⟨t, hdecw, (execDecw_of_fits hraw).symm.trans hdecw, effect.emits.wout, ?_, ?_,
    effect.inputs, effect.cfg, effect.ph, effect.wcnt, effect.stop⟩
  · rw [effect.emits.stat, decwRecord_eq]
  · rw [effect.emits.bout, List.append_nil]

/-! ### Completion (R120) -/

/-- Every operation but the reserved one completes, if the parameters admit its operands; of RX.BYTE
this asks that a word it may emit can be counted. -/
theorem exec_completes {i : Instr} {s : State} (hdefined : ∀ o d, i ≠ .reserved o d)
    (ok : configOk s.cfg = true) (hfits : sizeFits i s.cfg = true)
    (hcount : ∀ d8, i = .rxByte d8 → closesGroup d8 s.regs = true →
      wcntFits s.cfg (s.regs.wcnt + 1) = true) : ∃ t, exec i s = .next t := by
  cases i with
  | crcInit | crcByte | crcRead | txOpc | txWord | rxStart | rxEnd => exact ⟨_, rfl⟩
  | rxByte d8 => exact ⟨_, execRxByte_eq_received (hcount d8 rfl)⟩
  | crc8 a b => exact ⟨_, execCrc8_eq a b s⟩
  | encc op => exact ⟨_, execEncc_eq op s⟩
  | encw op words => exact ⟨_, execEncw_eq hfits⟩
  | decw raw => exact (execDecw_completes ok hfits).imp fun _ => And.left
  | reserved o d => exact absurd rfl (hdefined o d)

/-- Settles O49, by `exec_completes`. -/
theorem definedOperationsComplete : Obligations.DefinedOperationsComplete :=
  ⟨fun _ _ hdefined ok hfits hcount =>
    exec_completes hdefined ok hfits fun d8 hi _ => hcount d8 hi, fun _ _ _ => rfl⟩

/-! ### What a macro-operation emits (R18, R142) -/

/-- The bytes that a macro-operation emits. -/
def macroBytes (i : Instr) : List Byte :=
  match i with
  | .crc8 a b => [crc8 a b]
  | .encc op => encc op
  | .encw op words => encw op words
  | _ => []

/-- The words that a macro-operation emits. -/
def macroWords (i : Instr) : List Word :=
  match i with
  | .decw raw => decw raw
  | _ => []

/-- The records that a macro-operation emits. -/
def macroRecords (i : Instr) : List StatRec :=
  match i with
  | .decw raw => [decwRecord raw]
  | _ => []

theorem emits_bytes {s : State} {r : Regs} {b : List Byte} :
    Emits s { s with regs := r, bout := s.bout ++ b } b [] [] :=
  ⟨rfl, (List.append_nil _).symm, (List.append_nil _).symm⟩

theorem exec_macro_emits {i : Instr} {s : State} (hmacro : isMacro i = true)
    (ok : configOk s.cfg = true) (hfits : sizeFits i s.cfg = true) :
    ∃ t, exec i s = .next t ∧ Emits s t (macroBytes i) (macroWords i) (macroRecords i) := by
  cases i with
  | crc8 a b => exact ⟨_, execCrc8_eq a b s, emits_bytes⟩
  | encc op => exact ⟨_, execEncc_eq op s, emits_bytes⟩
  | encw op words => exact ⟨_, execEncw_eq hfits, emits_bytes⟩
  | decw raw =>
    obtain ⟨t, hdecw, effect⟩ := execDecw_completes ok hfits
    exact ⟨t, hdecw, effect.emits⟩
  | _ => cases hmacro

/-- Settles O28: by `exec_macro_emits` what is emitted is a function of the operation alone. -/
theorem macroOutputIgnoresStartingState : Obligations.MacroOutputIgnoresStartingState := by
  intro i s s' hmacro ok ok' hfits hfits'
  obtain ⟨t, hexec, hemits⟩ := exec_macro_emits hmacro ok hfits
  obtain ⟨t', hexec', hemits'⟩ := exec_macro_emits hmacro ok' hfits'
  exact ⟨macroBytes i, macroWords i, macroRecords i, t, t', hexec, hexec', hemits.bout,
    hemits'.bout, hemits.wout, hemits'.wout, hemits.stat, hemits'.stat⟩

end Sys2Proof.Machine
end

section
/-! SUPPORT. Level T: DECW of valid groups and of what follows them (R106, R108), the layout of a
command frame (R95), the round trip (R107), and a stuck bus (R81 part g). -/

namespace Sys2Proof.Machine

/-! ### DECW of valid groups (R106, R108) -/

theorem decw_getElem? {raw : List Byte} {g : Nat} (hg : g < firstInvalid raw) :
    (decw raw)[g]? = groupWord raw g := by
  induction raw using groups_induction generalizing g with
  | short raw hlen => simp [firstInvalid_of_short hlen] at hg
  | group a b c rest ih =>
    cases h : check a b c with
    | false => simp [firstInvalid_of_not_check rest h] at hg
    | true =>
      rw [firstInvalid_of_check rest h] at hg
      rw [decw_of_check rest h]
      cases g with
      | zero => rw [groupWord_zero]; rfl
      | succ g => rw [groupWord_succ, List.getElem?_cons_succ, ih (Nat.lt_of_succ_lt_succ hg)]

/-- The first invalid group is the one that is invalid behind valid ones. -/
theorem firstInvalid_eq {raw : List Byte} {j : Nat} (hj : j ≤ groupCount raw)
    (valid : ∀ g < j, groupValid raw g = true)
    (invalid : j < groupCount raw → groupValid raw j = false) : firstInvalid raw = j := by
  have hle := firstInvalid_le_groupCount raw
  obtain hlt | heq | hgt := Nat.lt_trichotomy (firstInvalid raw) j
  · have hvalid := valid _ hlt
    rw [groupValid_firstInvalid (by omega)] at hvalid
    cases hvalid
  · exact heq
  · have hinvalid := invalid (by omega)
    rw [groupValid_of_lt_firstInvalid hgt] at hinvalid
    cases hinvalid

/-- Settles O32: in both laws the index of the first invalid group is given (`firstInvalid_eq`),
which is the number of words (`decw_length`), each at its place (`decw_getElem?`). -/
theorem decwTestableLaws : Obligations.DecwTestableLaws := by
  have law {raw : List Byte} {j : Nat} (hj : firstInvalid raw = j) :
      (decw raw).length = j ∧ ∀ g < j, (decw raw)[g]? = groupWord raw g := by
    subst hj
    exact ⟨decw_length raw, fun g => decw_getElem?⟩
  refine ⟨fun raw k hlen valid => law ?_, fun raw j hj valid invalid => law ?_⟩
  · have hcount : groupCount raw = k := by rw [groupCount, hlen]; omega
    exact firstInvalid_eq hcount.ge valid fun hlt => absurd hlt (by omega)
  · exact firstInvalid_eq (Nat.le_of_lt hj) valid fun _ => invalid

/-- Settles O36, by induction on the groups of the first part: more bytes change nothing at a group
that is complete. -/
theorem wordsOnceDecodedStay : Obligations.WordsOnceDecodedStay := by
  intro raw more
  induction raw using groups_induction with
  | short raw hlen => exact ⟨decw (raw ++ more), by rw [decw_of_short hlen, List.nil_append]⟩
  | group a b c rest ih =>
    cases h : check a b c with
    | true =>
      obtain ⟨words, hwords⟩ := ih
      exact ⟨words, by simp [decw_of_check _ h, hwords]⟩
    | false => exact ⟨[], by simp [decw_of_not_check _ h]⟩

/-- Settles O37: the first group of a stuck bus is invalid. -/
theorem stuckBusGivesEmptyResult : Obligations.StuckBusGivesEmptyResult := by
  have stuck {x : Byte} (h : check x x x = false) (n : Nat) : decw (List.replicate n x) = [] := by
    obtain hlt | hge := Nat.lt_or_ge n 3
    · exact decw_of_short (by simpa using hlt)
    · obtain ⟨m, rfl⟩ := Nat.exists_eq_add_of_le' hge
      exact decw_of_not_check _ h
  exact fun n => ⟨stuck (by decide +kernel) n, stuck (by decide +kernel) n⟩

/-! ### The round trip (R107) -/

theorem drop_encw (op : Word) (words : List Word) :
    (encw op words).drop 2 = words.flatMap group := rfl

theorem decw_flatMap_group (words : List Word) : decw (words.flatMap group) = words := by
  induction words with
  | nil => rfl
  | cons w words ih =>
    have first : (w :: words).flatMap group =
        hiByte w :: loByte w :: crc8 (hiByte w) (loByte w) :: words.flatMap group := rfl
    rw [first, decw_of_check _ (check_crc8 _ _), joinBytes_hiByte_loByte, ih]

theorem group_joinBytes {a b c : Byte} (h : check a b c = true) :
    group (joinBytes a b) = [a, b, c] := by
  rw [group, hiByte_joinBytes, loByte_joinBytes, check_eq_true_iff.mp h]

theorem flatMap_group_decw {raw : List Byte} (hlen : raw.length % 3 = 0)
    (valid : ∀ g < groupCount raw, groupValid raw g = true) : (decw raw).flatMap group = raw := by
  induction raw using groups_induction with
  | short raw hshort =>
    have hnil : raw = [] := List.length_eq_zero_iff.mp (by omega)
    subst hnil; rfl
  | group a b c rest ih =>
    rw [groupCount_cons] at valid
    have h : check a b c = true := by
      rw [← groupValid_zero rest]
      exact valid 0 (Nat.succ_pos _)
    have later : (decw rest).flatMap group = rest := by
      refine ih ?_ fun g hg => ?_
      · simp only [List.length_cons] at hlen; omega
      · rw [← groupValid_succ (a := a) (b := b) (c := c)]
        exact valid _ (Nat.succ_lt_succ hg)
    rw [decw_of_check rest h, List.flatMap_cons, group_joinBytes h, later]
    rfl

/-- Settles O33, by `decw_flatMap_group` and `flatMap_group_decw`; in the last clause the opcode's
two bytes and a payload byte are no valid group. -/
theorem payloadRoundTrip : Obligations.PayloadRoundTrip :=
  ⟨fun _ words => decw_flatMap_group words, fun _ _ hlen valid => flatMap_group_decw hlen valid,
    decw_of_not_check (a := 0x12) (b := 0x34) (c := 0xBE) _ (by decide +kernel)⟩

/-! ### The layout of a command frame (R95) -/

/-- Byte `k` of the groups of a list of words is byte `k % 3` of the group of word `k / 3`. -/
theorem flatMap_group_getElem? {words : List Word} {i : Nat} {w : Word} (h : words[i]? = some w)
    {k : Nat} (hk : k < 3) : (words.flatMap group)[3 * i + k]? = (group w)[k]? := by
  induction words generalizing i with
  | nil => cases h
  | cons v words ih =>
    rw [List.flatMap_cons]
    cases i with
    | zero =>
      cases h
      rw [Nat.mul_zero, Nat.zero_add]
      exact List.getElem?_append_left hk
    | succ i =>
      rw [List.getElem?_append_right (by simp; omega), ← ih h, group_length]
      congr 1; omega

theorem encw_inj {op op' : Word} {words words' : List Word}
    (h : encw op words = encw op' words') : op = op' ∧ words = words' := by
  constructor
  · have hi : hiByte op = hiByte op' := Option.some.inj (congrArg (·[0]?) h)
    have lo : loByte op = loByte op' := Option.some.inj (congrArg (·[1]?) h)
    rw [← joinBytes_hiByte_loByte op, hi, lo, joinBytes_hiByte_loByte]
  · rw [← decw_flatMap_group words, ← drop_encw op, h, drop_encw, decw_flatMap_group]

/-- Settles O34, by `encw_length`, `flatMap_group_getElem?` and `encw_inj`. -/
theorem commandFrameLayout : Obligations.CommandFrameLayout := by
  refine ⟨fun op words => ⟨encw_length op words, rfl, rfl, fun i w h => ?_⟩,
    fun _ _ _ _ => encw_inj⟩
  have byte {k : Nat} (hk : k < 3) : (encw op words)[2 + 3 * i + k]? = (group w)[k]? := by
    rw [encw, List.getElem?_append_right (by simp; omega), ← flatMap_group_getElem? h hk]
    congr 1; simp; omega
  exact ⟨byte (by decide : 0 < 3), byte (by decide : 1 < 3), _, byte (by decide : 2 < 3),
    check_crc8 _ _⟩

end Sys2Proof.Machine
end

section
/-! SUPPORT. The rules of the whole machine, one step at a time: reset (R21, R140), what a step runs
(R39, R128), and the invariant (R20, R15). -/

namespace Sys2Proof.Machine

/-! ### Reset and steps (R21, R39, R128, R140) -/

/-- Settles O43: CRC.INIT then RX.START write every register but MSB and LSB with its reset value.
-/
theorem resetValues : Obligations.ResetValues :=
  ⟨rfl, rfl, rfl, rfl, rfl, rfl, rfl, rfl, rfl, fun s =>
    (execAll_cons_of_next (i := .crcInit) (execCrcInit_eq s)).trans
      (execAll_cons_of_next (i := .rxStart) (execRxStart_eq _))⟩

theorem step_reset {s : State} {rest : List HostInput} (h : s.inputs = .reset :: rest) :
    step s = .next (applyReset { s with inputs := rest }) := by
  simp [step, h]

theorem step_operation {s : State} {i : Instr} {rest : List HostInput}
    (h : s.inputs = .operation i :: rest) : step s = exec i { s with inputs := rest } := by
  simp [step, h]

theorem step_idle {s : State} (h : s.inputs = []) : step s = .next s := by
  simp [step, h]

/-- Settles O44, by `step_reset`. -/
theorem resetEventRestoresResetValues : Obligations.ResetEventRestoresResetValues :=
  fun _ _ h => step_reset h

/-- An operation that is no macro-operation expands to itself. -/
theorem expand_of_not_macro {i : Instr} (h : isMacro i = false) : expand i = [i] := by
  cases i with
  | crc8 | encc | encw | decw => cases h
  | _ => rfl

/-- Settles O47, by `step_request` and `step_operation`; the one word of a well-formed operation
decodes to it (`map_decode_encode`). -/
theorem stepRunsPresentedOperation : Obligations.StepRunsPresentedOperation := by
  refine ⟨fun s w rest => step_request, fun s i w rest hwf hmicro hword hin => ?_,
    fun s i rest => step_operation⟩
  have hdecode := map_decode_encode hwf
  rw [hword, expand_of_not_macro hmicro] at hdecode
  rw [step_request hin, List.singleton_injective hdecode]

/-- Settles O48, by `step_idle`. -/
theorem idleBlockHoldsItsState : Obligations.IdleBlockHoldsItsState :=
  fun _ => step_idle

/-! ### The invariant (R20, R15) -/

/-- Settles O45: each clause is one evaluation of the reset state. -/
theorem invariantHoldsAtReset : Obligations.InvariantHoldsAtReset :=
  ⟨rfl, fun h => Bool.noConfusion h, rfl, Nat.le_refl 0, fun _ h => absurd h List.not_mem_nil⟩

theorem cfg_of_next {i : Instr} {s t : State} (h : exec i s = .next t) : t.cfg = s.cfg :=
  (readsNoOutput_exec i s t h).2.2

/-- An operation that leaves the decoder's registers, and emits neither words nor records, keeps the
invariant. -/
theorem StateInv.of_keepsDecoder {s t : State} {b : List Byte} (inv : StateInv s)
    (hcfg : t.cfg = s.cfg) (hregs : KeepsDecoder s t) (hemits : Emits s t b [] []) :
    StateInv t where
  config := by rw [hcfg]; exact inv.config
  stopped := by rw [hregs]; exact inv.stopped
  counted := by rw [hcfg, hregs]; exact inv.counted
  emitted := by
    rw [hregs, hemits.wout, List.append_nil]; exact inv.emitted
  records := by rw [hemits.stat, List.append_nil]; exact inv.records

theorem StateInv.rxStart {s : State} (inv : StateInv s) :
    StateInv { s with regs := { s.regs with ph := .msb, stop := false, wcnt := 0 } } where
  config := inv.config
  stopped := fun _ => rfl
  counted := wcntFits_zero s.cfg
  emitted := Nat.zero_le _
  records := inv.records

theorem StateInv.rxByte {d8 : Byte} {s t : State} (inv : StateInv s) (h : RxByteEffect d8 s t) :
    StateInv t := by
  cases h with
  | stopped => exact inv
  | msb hs | lsb hs =>
    exact ⟨inv.config, fun h => by simp [hs] at h, inv.counted, inv.emitted, inv.records⟩
  | mismatch => exact ⟨inv.config, fun _ => rfl, inv.counted, inv.emitted, inv.records⟩
  | accept hs hp hd hfit =>
    refine ⟨inv.config, fun _ => rfl, hfit, ?_, inv.records⟩
    simpa using inv.emitted

theorem StateInv.rxEnd {s : State} (inv : StateInv s) : StateInv { s with
    regs := { s.regs with ph := .msb },
    stat := s.stat ++ [{ count := s.regs.wcnt, empty := emptyFlag s.regs.wcnt }] } where
  config := inv.config
  stopped := fun _ => rfl
  counted := inv.counted
  emitted := inv.emitted
  records r hr := by
    obtain hr | hr := List.mem_append.mp hr
    · exact inv.records r hr
    · rw [List.mem_singleton.mp hr]

theorem StateInv.rxBytes {raw : List Byte} {s t : State} (inv : StateInv s)
    (h : runAll (raw.map execRxByte) s = .next t) : StateInv t := by
  refine runAll_induction (R := fun s t => StateInv s → StateInv t) (fun _ => id)
    (fun _ _ _ hsm hmt inv => hmt (hsm inv)) (fun f hf s t hst inv => ?_) h inv
  obtain ⟨d8, _, rfl⟩ := List.mem_map.mp hf
  exact inv.rxByte (rxByteEffect_of_next hst)

theorem StateInv.decw {raw : List Byte} {s t : State} (inv : StateInv s)
    (h : execDecw raw s = .next t) : StateInv t := by
  obtain ⟨_, u, v, hstart, hbytes, hend⟩ := execDecw_eq_next.mp h
  rw [execRxStart_eq] at hstart
  rw [execRxEnd_eq] at hend
  cases hstart
  cases hend
  exact (inv.rxStart.rxBytes hbytes).rxEnd

theorem exec_keeps_inv {i : Instr} {s t : State} (inv : StateInv s) (h : exec i s = .next t) :
    StateInv t := by
  have hcfg := cfg_of_next h
  cases i with
  | crcInit => exact inv.of_keepsDecoder hcfg (execCrcInit_keepsDecoder h) (emits_of_commit h)
  | crcByte => exact inv.of_keepsDecoder hcfg (execCrcByte_keepsDecoder h) (emits_of_commit h)
  | crcRead =>
    exact inv.of_keepsDecoder hcfg (keepsDecoder_of_regs_eq (execCrcRead_regs h))
      (emits_of_commit h)
  | txOpc =>
    exact inv.of_keepsDecoder hcfg (keepsDecoder_of_regs_eq (execTxOpc_regs h)) (execTxOpc_emits h)
  | txWord => exact inv.of_keepsDecoder hcfg (execTxWord_keepsDecoder h) (execTxWord_emits h)
  | crc8 =>
    obtain ⟨_, hemits⟩ := execCrc8_emits h
    exact inv.of_keepsDecoder hcfg (execCrc8_keepsDecoder h) hemits
  | encc =>
    exact inv.of_keepsDecoder hcfg (keepsDecoder_of_regs_eq (execEncc_regs h)) (execEncc_emits h)
  | encw => exact inv.of_keepsDecoder hcfg (execEncw_keepsDecoder h) (execEncw_emits h)
  | rxStart =>
    cases (execRxStart_eq s).symm.trans h
    exact inv.rxStart
  | rxByte => exact inv.rxByte (rxByteEffect_of_next h)
  | rxEnd =>
    cases (execRxEnd_eq s).symm.trans h
    exact inv.rxEnd
  | decw => exact inv.decw h
  | reserved => cases h

/-- What the host presents next is no part of the invariant. -/
theorem StateInv.inputs {s : State} (inv : StateInv s) (rest : List HostInput) :
    StateInv { s with inputs := rest } :=
  ⟨inv.config, inv.stopped, inv.counted, inv.emitted, inv.records⟩

theorem StateInv.applyReset {s : State} (inv : StateInv s) : StateInv (applyReset s) where
  config := inv.config
  stopped := fun h => by cases h
  counted := wcntFits_zero s.cfg
  emitted := Nat.le_refl 0
  records := fun _ h => by cases h

/-- Settles O46: a step performs an operation (`exec_keeps_inv`), resets, or does nothing. -/
theorem stepKeepsInvariant : Obligations.StepKeepsInvariant := by
  intro s t inv h
  cases hin : s.inputs with
  | nil =>
    cases (step_idle hin).symm.trans h
    exact inv
  | cons input rest =>
    cases input with
    | request w => exact exec_keeps_inv (inv.inputs rest) ((step_request hin).symm.trans h)
    | operation i => exact exec_keeps_inv (inv.inputs rest) ((step_operation hin).symm.trans h)
    | reset =>
      cases (step_reset hin).symm.trans h
      exact (inv.inputs rest).applyReset

end Sys2Proof.Machine
end

section
/-! SUPPORT. Runs of operations while a response is received: what WCNT counts (R20 part c), what a
stopped decoder does (R20 part b, R146), and what a host that keeps the hazard rule gets (R143). -/

namespace Sys2Proof.Machine

/-! ### Operations that do not start another response -/

/-- A relation between two states that is reflexive, transitive and kept by each operation of a list
is kept by the run of the list. -/
theorem execAll_induction {R : State → State → Prop} (refl : ∀ s, R s s)
    (trans : ∀ s m t, R s m → R m t → R s t) {ops : List Instr}
    (kept : ∀ i ∈ ops, ∀ s t, exec i s = .next t → R s t) {s t : State}
    (h : execAll ops s = .next t) : R s t := by
  refine runAll_induction refl trans (fun f hf s t hst => ?_) h
  obtain ⟨i, hi, rfl⟩ := List.mem_map.mp hf
  exact kept i hi s t hst

/-- Neither RX.START nor DECW. -/
def Continues (i : Instr) : Prop := i ≠ .rxStart ∧ ∀ raw, i ≠ .decw raw

theorem wout_of_no_words {i : Instr} {s t : State} (h : exec i s = .next t)
    (hnone : wordsEmitted i s = []) : t.wout = s.wout := by
  obtain ⟨b, r, hemits, _⟩ := exec_emits h
  rw [hemits.wout, hnone, List.append_nil]

/-- What an operation that does not start another response can do to the decoder's registers and to
WOUT: nothing, or it is RX.BYTE or RX.END. -/
inductive ReceiverEffect : Instr → State → State → Prop
  | bystander {i : Instr} {s t : State} (hregs : KeepsDecoder s t) (hwout : t.wout = s.wout) :
      ReceiverEffect i s t
  | byte {d8 : Byte} {s t : State} (h : RxByteEffect d8 s t) : ReceiverEffect (.rxByte d8) s t
  | finish {s t : State} (hregs : t.regs = { s.regs with ph := .msb }) (hwout : t.wout = s.wout) :
      ReceiverEffect .rxEnd s t

theorem receiverEffect_of_next {i : Instr} {s t : State} (hi : Continues i)
    (h : exec i s = .next t) : ReceiverEffect i s t := by
  cases i with
  | rxStart => exact absurd rfl hi.1
  | decw raw => exact absurd rfl (hi.2 raw)
  | rxByte d8 => exact .byte (rxByteEffect_of_next h)
  | rxEnd => exact .finish (regs_of_commit h) (wout_of_no_words h rfl)
  | _ =>
    cases decoderEffect_of_next h with
    | keeps hregs => exact .bystander hregs (wout_of_no_words h rfl)

/-! ### WCNT counts the words emitted (R20 part c) -/

theorem ReceiverEffect.wcnt_counts {i : Instr} {s t : State} (h : ReceiverEffect i s t) :
    t.wout.length + s.regs.wcnt = s.wout.length + t.regs.wcnt := by
  cases h with
  | bystander hregs hwout => rw [hregs, hwout]
  | finish hregs hwout => rw [hregs, hwout]
  | byte hb =>
    cases hb with
    | accept => simp only [List.length_append, List.length_singleton]; omega
    | _ => rfl

theorem execAll_wcnt_counts {ops : List Instr} (hops : ∀ o ∈ ops, Continues o) {s t : State}
    (h : execAll ops s = .next t) :
    t.wout.length + s.regs.wcnt = s.wout.length + t.regs.wcnt := by
  refine execAll_induction
    (R := fun s t => t.wout.length + s.regs.wcnt = s.wout.length + t.regs.wcnt)
    (fun _ => rfl) (fun _ _ _ hsm hmt => ?_) (fun i hi s t hst => ?_) h
  · omega
  · exact (receiverEffect_of_next (hops i hi) hst).wcnt_counts

/-- Settles O55: RX.START and RST begin with WCNT zero, and from there WOUT and WCNT grow together
(`execAll_wcnt_counts`). -/
theorem wcntCountsEmittedWords : Obligations.WcntCountsEmittedWords := by
  refine fun ops hops => ⟨fun s t h => ?_, fun s s₀ t rest hin hstep h => ?_⟩
  · rw [execAll_cons_of_next (i := .rxStart) (execRxStart_eq s)] at h
    exact execAll_wcnt_counts hops h
  · cases (step_reset hin).symm.trans hstep
    simpa [Regs.reset] using execAll_wcnt_counts hops h

/-! ### A stopped decoder (R20 part b, R146) -/

/-- From a stopped state: no word, none counted, still stopped. -/
def StaysStopped (s t : State) : Prop :=
  s.regs.stop = true → t.wout = s.wout ∧ t.regs.wcnt = s.regs.wcnt ∧ t.regs.stop = true

theorem ReceiverEffect.staysStopped {i : Instr} {s t : State} (h : ReceiverEffect i s t) :
    StaysStopped s t := by
  intro hstop
  cases h with
  | bystander hregs hwout => rw [hregs]; exact ⟨hwout, rfl, hstop⟩
  | finish hregs hwout => rw [hregs]; exact ⟨hwout, rfl, hstop⟩
  | byte hb =>
    cases hb with
    | stopped => exact ⟨rfl, rfl, hstop⟩
    | msb hs | lsb hs | mismatch hs | accept hs => rw [hs] at hstop; cases hstop

theorem execAll_staysStopped {ops : List Instr} (hops : ∀ o ∈ ops, Continues o) {s t : State}
    (h : execAll ops s = .next t) : StaysStopped s t := by
  refine execAll_induction (fun _ hstop => ⟨rfl, rfl, hstop⟩)
    (fun s m t hsm hmt hstop => ?_) (fun i hi s t hst => ?_) h
  · obtain ⟨hwout, hwcnt, hm⟩ := hsm hstop
    obtain ⟨hwout', hwcnt', ht⟩ := hmt hm
    exact ⟨hwout'.trans hwout, hwcnt'.trans hwcnt, ht⟩
  · exact (receiverEffect_of_next (hops i hi) hst).staysStopped

theorem ReceiverEffect.failed_byte {i : Instr} {s t : State} (h : ReceiverEffect i s t)
    (hs : s.regs.stop = false) (ht : t.regs.stop = true) :
    ∃ d8, i = .rxByte d8 ∧ s.regs.ph = .check ∧ d8 ≠ s.regs.crc ∧ t.wout = s.wout := by
  cases h with
  | bystander hregs => rw [hregs, hs] at ht; cases ht
  | finish hregs => rw [hregs, hs] at ht; cases ht
  | byte hb =>
    cases hb with
    | mismatch _ hp hd => exact ⟨_, rfl, hp, hd, rfl⟩
    | stopped | msb | lsb | accept => rw [hs] at ht; cases ht

/-- Where a run stops the decoder, a byte of it failed its comparison, and no word was emitted
since. -/
theorem execAll_failed_byte {ops : List Instr} (hops : ∀ o ∈ ops, Continues o) {s t : State}
    (h : execAll ops s = .next t) (hs : s.regs.stop = false) (ht : t.regs.stop = true) :
    ∃ (before after : List Instr) (d8 : Byte) (u : State),
      ops = before ++ .rxByte d8 :: after ∧ execAll before s = .next u ∧
      u.regs.stop = false ∧ u.regs.ph = .check ∧ d8 ≠ u.regs.crc ∧ t.wout = u.wout := by
  induction ops generalizing s with
  | nil => cases h; rw [hs] at ht; cases ht
  | cons i ops ih =>
    obtain ⟨m, hfirst, hrest⟩ := execAll_cons_eq_next.mp h
    have hlater : ∀ o ∈ ops, Continues o := fun o ho => hops o (List.mem_cons_of_mem i ho)
    cases hm : m.regs.stop with
    | true =>
      obtain ⟨d8, rfl, hp, hd, hwout⟩ :=
        (receiverEffect_of_next (hops i List.mem_cons_self) hfirst).failed_byte hs hm
      obtain ⟨hwout', _⟩ := execAll_staysStopped hlater hrest hm
      exact ⟨[], ops, d8, s, rfl, rfl, hs, hp, hd, hwout'.trans hwout⟩
    | false =>
      obtain ⟨before, after, d8, u, rfl, hbefore, hu⟩ := ih hlater hrest hm
      exact ⟨i :: before, after, d8, u, rfl, (execAll_cons_of_next hfirst).trans hbefore, hu⟩

/-- Settles O60, by `runAll_execRxByte_stopped`, `execAll_staysStopped` and `execAll_failed_byte`.
-/
theorem stoppedDecoderIgnoresBytes : Obligations.StoppedDecoderIgnoresBytes := by
  refine ⟨fun raw s hstop => ?_, fun ops s t hops h => ⟨?_, ?_⟩⟩
  · rw [execAll_rxBytes, runAll_execRxByte_stopped hstop]
  · exact execAll_staysStopped hops h
  · exact execAll_failed_byte hops h

/-! ### What a receiver holds and what it still owes (R103, R105) -/

/-- The bytes of the incomplete group that a receiver holds. -/
def held (r : Regs) : List Byte :=
  match r.ph with
  | .msb => []
  | .lsb => [r.msb]
  | .check => [r.msb, r.lsb]

/-- The words that a receiver has to emit for the bytes to come. -/
def owed (r : Regs) (bytes : List Byte) : List Word :=
  if r.stop = true then [] else decw (held r ++ bytes)

theorem owed_of_stop {r : Regs} (h : r.stop = true) (bytes : List Byte) : owed r bytes = [] :=
  if_pos h

section

variable {r : Regs} (hs : r.stop = false) (bytes : List Byte)
include hs

theorem owed_msb (hp : r.ph = .msb) : owed r bytes = decw bytes := by
  simp [owed, held, hs, hp]

theorem owed_lsb (hp : r.ph = .lsb) : owed r bytes = decw (r.msb :: bytes) := by
  simp [owed, held, hs, hp]

theorem owed_check (hp : r.ph = .check) : owed r bytes = decw (r.msb :: r.lsb :: bytes) := by
  simp [owed, held, hs, hp]

end

theorem owed_nil (r : Regs) : owed r [] = [] := by
  cases hs : r.stop with
  | true => exact owed_of_stop hs []
  | false =>
    cases hp : r.ph with
    | msb => exact owed_msb hs [] hp
    | lsb => exact owed_lsb hs [] hp
    | check => exact owed_check hs [] hp

/-- The accumulator is not part of what a receiver owes. -/
theorem owed_crc (r : Regs) (c : Byte) (bytes : List Byte) :
    owed { r with crc := c } bytes = owed r bytes := rfl

/-- CRC is the checksum so far of the group being received (R20 part d). -/
structure Tracks (r : Regs) : Prop where
  lsb : r.stop = false → r.ph = .lsb → r.crc = absorb 0xFF r.msb
  check : r.stop = false → r.ph = .check → r.crc = crc8 r.msb r.lsb

/-- Between groups, or stopped, there is nothing to track. -/
theorem tracks_of_not_midGroup {s : State} (h : midGroup s = false) : Tracks s.regs := by
  simp only [midGroup, Bool.and_eq_false_iff, Bool.not_eq_false', bne_eq_false_iff_eq] at h
  constructor <;> intro hs hp <;> simp [hs, hp] at h

theorem Tracks.rxByte {d8 : Byte} {s t : State} (h : RxByteEffect d8 s t) (tracks : Tracks s.regs) :
    Tracks t.regs := by
  cases h with
  | stopped => exact tracks
  | msb => exact ⟨fun _ _ => rfl, nofun⟩
  | lsb hs hp => exact ⟨nofun, fun _ _ => congrArg (absorb · d8) (tracks.lsb hs hp)⟩
  | mismatch => exact ⟨nofun, nofun⟩
  | accept => exact ⟨nofun, nofun⟩

/-- Of the words that `s` owes for the bytes `all`, those that `t` does not owe for the bytes
`later` have been emitted and counted. -/
def Delivers (s t : State) (all later : List Byte) : Prop :=
  ∃ words, t.wout = s.wout ++ words ∧ t.regs.wcnt = s.regs.wcnt + words.length ∧
    owed s.regs all = words ++ owed t.regs later

theorem delivers_nothing {s t : State} {all later : List Byte} (hwout : t.wout = s.wout)
    (hwcnt : t.regs.wcnt = s.regs.wcnt) (howed : owed s.regs all = owed t.regs later) :
    Delivers s t all later :=
  ⟨[], by simp [hwout], hwcnt, howed⟩

/-- The third byte of a group settles whether its word is owed. -/
theorem Tracks.owed_third {r : Regs} (tracks : Tracks r) (hs : r.stop = false) (hp : r.ph = .check)
    (d8 : Byte) (bytes : List Byte) : owed r (d8 :: bytes) =
      if d8 = r.crc then joinBytes r.msb r.lsb :: decw bytes else [] := by
  rw [owed_check hs _ hp, tracks.check hs hp]
  split
  case isTrue hd => exact decw_of_check bytes (check_eq_true_iff.mpr hd.symm)
  case isFalse hd => exact decw_of_not_check bytes (check_eq_false_iff.mpr (Ne.symm hd))

theorem Tracks.delivers_rxByte {d8 : Byte} {s t : State} (tracks : Tracks s.regs)
    (h : RxByteEffect d8 s t) (bytes : List Byte) : Delivers s t (d8 :: bytes) bytes := by
  cases h with
  | stopped hs =>
    exact delivers_nothing rfl rfl ((owed_of_stop hs _).trans (owed_of_stop hs _).symm)
  | msb hs hp =>
    refine delivers_nothing rfl rfl ?_
    rw [owed_msb hs _ hp, owed_lsb (by exact hs) _ rfl]
  | lsb hs hp =>
    refine delivers_nothing rfl rfl ?_
    rw [owed_lsb hs _ hp, owed_check (by exact hs) _ rfl]
  | mismatch hs hp hd =>
    refine delivers_nothing rfl rfl ?_
    rw [tracks.owed_third hs hp, if_neg hd, owed_of_stop rfl]
  | accept hs hp hd =>
    refine ⟨[joinBytes s.regs.msb s.regs.lsb], rfl, rfl, ?_⟩
    rw [tracks.owed_third hs hp, if_pos hd, owed_msb (by exact hs) _ rfl]
    rfl

/-- Settles O56: the bytes alone emit DECW's words (`runAll_execRxByte_emits`), stop only at an
invalid group (`someGroupInvalid_of_stop`), and each keeps the accumulator tracking
(`Tracks.rxByte`). -/
theorem undisturbedAccumulatorTracksGroup : Obligations.UndisturbedAccumulatorTracksGroup := by
  intro raw s t h
  rw [execAll_cons_of_next (i := .rxStart) (execRxStart_eq s), execAll_rxBytes] at h
  have tracks : Tracks t.regs := by
    refine runAll_induction (R := fun s t => Tracks s.regs → Tracks t.regs) (fun _ => id)
      (fun _ _ _ hsm hmt tracks => hmt (hsm tracks)) (fun f hf s t hst => ?_) h
      (tracks_of_not_midGroup rfl)
    obtain ⟨d8, _, rfl⟩ := List.mem_map.mp hf
    exact Tracks.rxByte (rxByteEffect_of_next hst)
  exact ⟨(runAll_execRxByte_emits rfl rfl h).wout, someGroupInvalid_of_stop rfl rfl h, tracks.lsb,
    tracks.check⟩

/-! ### A host that keeps the hazard rule (R143) -/

theorem hazardFree_cons {i : Instr} {ops : List Instr} {s : State}
    (h : hazardFree (i :: ops) s = true) : allowedWhileReceiving i s = true ∧
      ∀ t, exec i s = .next t → hazardFree ops t = true := by
  rw [hazardFree, Bool.and_eq_true] at h
  obtain ⟨hallowed, hrest⟩ := h
  refine ⟨hallowed, fun t ht => ?_⟩
  rwa [ht] at hrest

/-- What the rule allows, and is not a byte, writes CRC between groups only. -/
theorem crc_kept_of_allowed {i : Instr} {s t : State} (h : exec i s = .next t)
    (hallowed : allowedWhileReceiving i s = true) (hbyte : ∀ d8, i ≠ .rxByte d8)
    (hmid : midGroup s = true) : t.regs.crc = s.regs.crc := by
  by_contra hne
  obtain rfl | ⟨d, rfl⟩ | ⟨w, rfl⟩ | ⟨⟨d, rfl⟩, _⟩ | ⟨a, b, rfl⟩ | ⟨op, ws, rfl, _⟩ | ⟨raw, rfl⟩ :=
    crc_writers h hne
  case inr.inr.inr.inl => exact hbyte d rfl
  all_goals simp [allowedWhileReceiving, hmid] at hallowed

/-- What the rule allows, and is not a byte, touches neither the decoder nor WOUT. -/
theorem bystander_of_allowed {i : Instr} {s t : State} (h : exec i s = .next t)
    (hallowed : allowedWhileReceiving i s = true) (hbyte : ∀ d8, i ≠ .rxByte d8) :
    KeepsDecoder s t ∧ t.wout = s.wout := by
  have hi : Continues i := by
    refine ⟨?_, fun raw => ?_⟩ <;>
    · rintro rfl
      cases hallowed
  cases receiverEffect_of_next hi h with
  | bystander hregs hwout => exact ⟨hregs, hwout⟩
  | byte => exact absurd rfl (hbyte _)
  | finish => cases hallowed

theorem Tracks.bystander {i : Instr} {s t : State} (tracks : Tracks s.regs) (h : exec i s = .next t)
    (hallowed : allowedWhileReceiving i s = true) (hbyte : ∀ d8, i ≠ .rxByte d8) :
    Tracks t.regs := by
  obtain ⟨hregs, _⟩ := bystander_of_allowed h hallowed hbyte
  cases hmid : midGroup s with
  | true => rw [hregs, crc_kept_of_allowed h hallowed hbyte hmid]; exact tracks
  | false => exact tracks_of_not_midGroup (by rw [midGroup, hregs]; exact hmid)

theorem rxBytes_cons_of_not_byte {i : Instr} (hbyte : ∀ d8, i ≠ .rxByte d8) (ops : List Instr) :
    rxBytes (i :: ops) = rxBytes ops := by
  cases i with
  | rxByte d8 => exact absurd rfl (hbyte d8)
  | _ => rfl

/-- An operation that the rule allows keeps the accumulator tracking, and delivers what is owed. -/
theorem Tracks.step {i : Instr} {s t : State} (tracks : Tracks s.regs) (h : exec i s = .next t)
    (hallowed : allowedWhileReceiving i s = true) (ops : List Instr) :
    Tracks t.regs ∧ Delivers s t (rxBytes (i :: ops)) (rxBytes ops) := by
  by_cases hbyte : ∀ d8, i ≠ .rxByte d8
  · obtain ⟨hregs, hwout⟩ := bystander_of_allowed h hallowed hbyte
    refine ⟨tracks.bystander h hallowed hbyte, delivers_nothing hwout (by rw [hregs]) ?_⟩
    rw [rxBytes_cons_of_not_byte hbyte, hregs]
    exact (owed_crc s.regs t.regs.crc _).symm
  · obtain ⟨d8, rfl⟩ := not_forall_not.mp hbyte
    have effect := rxByteEffect_of_next h
    exact ⟨tracks.rxByte effect, tracks.delivers_rxByte effect _⟩

/-- An operation that the rule allows completes, if WCNT can count the words owed. -/
theorem Tracks.completes {i : Instr} {s : State} (tracks : Tracks s.regs)
    (ok : configOk s.cfg = true) (hallowed : allowedWhileReceiving i s = true) (ops : List Instr)
    (hfit : wcntFits s.cfg (s.regs.wcnt + (owed s.regs (rxBytes (i :: ops))).length) = true) :
    ∃ t, exec i s = .next t := by
  refine exec_completes (fun o d heq => ?_) ok ?_ fun d8 heq hcloses => ?_
  · subst heq; cases hallowed
  · cases i with
    | encw op words => exact (Bool.and_eq_true_iff.mp hallowed).2
    | decw raw => cases hallowed
    | _ => rfl
  · subst heq
    obtain ⟨hs, hp, hd⟩ := closesGroup_iff.mp hcloses
    rw [rxBytes, tracks.owed_third hs hp, if_pos hd, List.length_cons] at hfit
    exact wcntFits_mono hfit (by omega)

/-- A run that keeps the rule completes, and emits and counts what is owed. -/
theorem Tracks.hazardFree_run {ops : List Instr} {s : State} (tracks : Tracks s.regs)
    (ok : configOk s.cfg = true)
    (hfit : wcntFits s.cfg (s.regs.wcnt + (owed s.regs (rxBytes ops)).length) = true)
    (hfree : hazardFree ops s = true) :
    ∃ t, execAll ops s = .next t ∧ t.wout = s.wout ++ owed s.regs (rxBytes ops) ∧
      t.regs.wcnt = s.regs.wcnt + (owed s.regs (rxBytes ops)).length := by
  induction ops generalizing s with
  | nil => exact ⟨s, rfl, by simp [rxBytes, owed_nil], by simp [rxBytes, owed_nil]⟩
  | cons i ops ih =>
    obtain ⟨hallowed, hlater⟩ := hazardFree_cons hfree
    obtain ⟨m, hm⟩ := tracks.completes ok hallowed ops hfit
    obtain ⟨tracks', words, hwout, hwcnt, howed⟩ := tracks.step hm hallowed ops
    have hcfg := cfg_of_next hm
    have total : m.regs.wcnt + (owed m.regs (rxBytes ops)).length =
        s.regs.wcnt + (owed s.regs (rxBytes (i :: ops))).length := by
      rw [hwcnt, howed, List.length_append, Nat.add_assoc]
    obtain ⟨t, hrun, hwout', hwcnt'⟩ :=
      ih tracks' (by rwa [hcfg]) (by rwa [hcfg, total]) (hlater m hm)
    refine ⟨t, (execAll_cons_of_next hm).trans hrun, ?_, hwcnt'.trans total⟩
    rw [hwout', hwout, howed, List.append_assoc]

/-- Settles O57, by `Tracks.hazardFree_run`: RX.START begins between groups, where DECW of the bytes
to come is owed. -/
theorem hazardFreeInterleavingDecodes : Obligations.HazardFreeInterleavingDecodes := by
  intro ops s s₀ ok hraw hstart hfree
  obtain ⟨hcfg, hwout, hs, hp, hzero⟩ := execRxStart_next hstart
  have howed : owed s₀.regs (rxBytes ops) = decw (rxBytes ops) := owed_msb hs _ hp
  have hfit : wcntFits s₀.cfg (s₀.regs.wcnt + (owed s₀.regs (rxBytes ops)).length) = true := by
    rw [hcfg, hzero, howed, Nat.zero_add]
    exact wcntFits_mono (wcntFits_of_rawFits ok hraw) (decw_length_le _)
  have tracks : Tracks s₀.regs := tracks_of_not_midGroup (by simp [midGroup, hp])
  obtain ⟨t, hrun, hwords, hwcnt⟩ := tracks.hazardFree_run (by rwa [hcfg]) hfit hfree
  rw [howed] at hwords hwcnt
  exact ⟨t, hrun, by rw [hwords, hwout], by rw [hwcnt, hzero, Nat.zero_add]⟩

/-- An operation that does not write CRC completes from any state, and leaves CRC as it was. -/
theorem exec_keepsCrc {i : Instr} (h : keepsCrc i = true) (s : State) :
    ∃ t, exec i s = .next t ∧ t.regs.crc = s.regs.crc := by
  cases i with
  | crcRead => exact ⟨_, execCrcRead_eq s, rfl⟩
  | txOpc op => exact ⟨_, execTxOpc_eq op s, rfl⟩
  | rxStart => exact ⟨_, execRxStart_eq s, rfl⟩
  | rxEnd => exact ⟨_, execRxEnd_eq s, rfl⟩
  | encc op => exact ⟨_, execEncc_eq op s, rfl⟩
  | _ => cases h

theorem execAll_keepsCrc {ops : List Instr} (h : ∀ o ∈ ops, keepsCrc o = true) (s : State) :
    ∃ t, execAll ops s = .next t ∧ t.regs.crc = s.regs.crc := by
  induction ops generalizing s with
  | nil => exact ⟨s, rfl, rfl⟩
  | cons i ops ih =>
    obtain ⟨m, hm, hcrc⟩ := exec_keepsCrc (h i List.mem_cons_self) s
    obtain ⟨t, ht, hcrc'⟩ := ih (fun o ho => h o (List.mem_cons_of_mem i ho)) m
    exact ⟨t, (execAll_cons_of_next hm).trans ht, hcrc'.trans hcrc⟩

/-- Settles O58: each gap keeps CRC (`execAll_keepsCrc`), so it holds the checksum so far. -/
theorem checksumSurvivesSafeInterleaving : Obligations.ChecksumSurvivesSafeInterleaving := by
  intro a b ops₁ ops₂ ops₃ s h
  simp only [List.mem_append, or_imp, forall_and] at h
  obtain ⟨⟨h₁, h₂⟩, h₃⟩ := h
  obtain ⟨t₁, run₁, crc₁⟩ :=
    execAll_keepsCrc h₁ { s with regs := { s.regs with crc := 0xFF } }
  obtain ⟨t₂, run₂, crc₂⟩ :=
    execAll_keepsCrc h₂ { t₁ with regs := { t₁.regs with crc := absorb t₁.regs.crc a } }
  obtain ⟨t, run₃, crc₃⟩ :=
    execAll_keepsCrc h₃ { t₂ with regs := { t₂.regs with crc := absorb t₂.regs.crc b } }
  have hcrc : t.regs.crc = crc8 a b := by simp [crc₃, crc₂, crc₁, crc8, crcInitValue]
  refine ⟨t, _, ?_, hcrc, execCrcRead_eq t, by rw [hcrc]⟩
  rw [execAll_cons_of_next (i := .crcInit) (execCrcInit_eq s), execAll_append_of_next run₁,
    execAll_cons_of_next (i := .crcByte a) (execCrcByte_eq a t₁), execAll_append_of_next run₂,
    execAll_cons_of_next (i := .crcByte b) (execCrcByte_eq b t₂), run₃]

/-- Settles O59: TX.WORD leaves its own checksum 0xB0 in CRC, so the group's second byte makes 0x50,
which the third byte fails to match. -/
theorem sharedAccumulatorHazard : Obligations.SharedAccumulatorHazard := by
  have word : crc8 (hiByte 0x0001) (loByte 0x0001) = 0xB0 := by decide +kernel
  have accumulated : absorb 0xB0 0xEF = 0x50 := by decide +kernel
  intro s
  rw [execAll_cons_of_next (i := .rxStart) (execRxStart_eq s),
    execAll_cons_of_next (i := .rxByte 0xBE) (execRxByte_msb rfl rfl),
    execAll_cons_of_next (i := .txWord 0x0001) (execTxWord_eq _ _), group, word,
    execAll_cons_of_next (i := .rxByte 0xEF) (execRxByte_lsb rfl rfl), accumulated,
    execAll_cons_of_next (i := .rxByte 0x92) (execRxByte_mismatch rfl rfl 
      (by exact (by decide : (0x92 : Byte) ≠ 0x50))),
    execAll_cons_of_next (i := .rxEnd) (execRxEnd_eq _)]
  rfl

end Sys2Proof.Machine
end
